-- ==== Sys2Proof/Word.lean ====
section
/-!
DEFINITION. The unit of data of MDP-FRD: the byte (spec 00_scope.md R8). The block has no wider machine
word: every wider quantity is a natural number assembled from bytes (41_validator_dispatch.md R135).
-/

namespace Sys2Proof

/-- A byte, an unsigned integer 0..255 (00_scope.md R8). A bit vector, because the checksum XORs bytes. -/
abbrev Byte := BitVec 8

end Sys2Proof
end

