-- ==== Sys2Proof/Syntax.lean ====
section
/-!
DEFINITION. The abstract syntax of what MDP-FRD executes. The block's "instruction" is the frame and its
"opcode" the type byte (30_encoding.md, opening): one constructor of `Instr` per row of opcode_table.json.
A row is selected by magic and type byte alone (30_encoding.md R75), so an instruction carries the rest of its
frame raw: a wrong size or checksum is a failure OF that instruction, found when it runs.
-/

namespace Sys2Proof

/-- The nineteen named packet types (30_encoding.md R64), the keys of `TYPE_CODE` and `SCHEMA`. -/
inductive PacketType where
  | synthesize | wave | addr | updateCh | machine
  | setOutput | getAddr | setAddr | setCh | setV | setI | setAllAddr
  | startAutoMatch | stopAutoMatch | resetToDfu | rgb | getMachine | heartbeat | err
  deriving DecidableEq, Repr

/-- Who sends a packet type (30_encoding.md R63). The block never checks it. -/
inductive Direction where
  /-- device → caller -/
  | report
  /-- caller → device -/
  | command
  deriving DecidableEq, Repr

/-- The four failure kinds (60_exceptions.md R220). A failure event carries the kind and nothing else. -/
inductive FailKind where
  /-- `FAIL_MAGIC`, code 1 (41_validator_dispatch.md R120). -/
  | magic
  /-- `FAIL_SIZE`, code 2 (R121). -/
  | size
  /-- `FAIL_CHECKSUM`, code 3 (R122). -/
  | checksum
  /-- `FAIL_LAYOUT`, code 4 (R129, R130, R132). -/
  | layout
  deriving DecidableEq, Repr

/-- A frame after its magic and type byte, byte for byte (20_memory.md R48). -/
structure Body where
  /-- index 3: total frame length as the frame claims it -/
  size     : Byte
  /-- index 4: raw, never validated (30_encoding.md R67) -/
  channel  : Byte
  /-- index 5: XOR of the payload bytes as the frame claims it -/
  checksum : Byte
  /-- index 6 onwards -/
  payload  : List Byte
  deriving DecidableEq, Repr

/-- One constructor per row of opcode_table.json. -/
inductive Instr where
  | synthesize (b : Body)
  | wave (b : Body)
  | addr (b : Body)
  | updateCh (b : Body)
  | machine (b : Body)
  | setOutput (b : Body)
  | getAddr (b : Body)
  | setAddr (b : Body)
  | setCh (b : Body)
  | setV (b : Body)
  | setI (b : Body)
  | setAllAddr (b : Body)
  | startAutoMatch (b : Body)
  | stopAutoMatch (b : Body)
  | resetToDfu (b : Body)
  | rgb (b : Body)
  | getMachine (b : Body)
  | heartbeat (b : Body)
  | err (b : Body)
  /-- the `OPAQUE` row: a type byte that is no code of `TYPE_CODE` (43_commands.md R183) -/
  | opaquePacket (typeByte : Byte) (b : Body)
  deriving DecidableEq, Repr

end Sys2Proof
end

