-- ==== Sys2Proof/Config.lean ====
section
/-!
DEFINITION. The configuration record of the block: every entry of 00_scope.md R7 marked *parameter* is a field,
and nothing else is configurable. The schema language of 30_encoding.md R68 is a type of plain data here, so that
a schema table can be written out and compared. The default values, and the conditions a configuration must meet,
stand in Sys2Proof/Machine/Parameters.lean. The last three declarations are the free values of the model (log entries 11 and 19).
-/

namespace Sys2Proof

/-- The field names a schema may use: those of the default table (30_encoding.md R70 to R72), the two extra names of
the alternative slot of 93_implementation_defined.md U8, and `other` for any further name. -/
inductive FieldName where
  | slots | online | deviceType | output | lock | loadStatus | psuStatus
  | outVoltage | outCurrent | inVoltage | inCurrent | setVoltage | setCurrent | temperature | color | error
  | groups | timestamp | items | voltage | current
  | entries | addr0 | addr1 | addr2 | addr3 | addr4 | freqOffset
  | machineType | payload
  | num | endPad
  | other (n : Nat)
  deriving DecidableEq, Repr

/-- The value a `COND` compares with: a number, or the parameter `LOAD_KIND` by name (30_encoding.md R70). -/
inductive CondValue where
  | literal (n : Nat)
  | loadKind
  deriving DecidableEq, Repr

/-- A schema: an ordered list of field descriptors (30_encoding.md R68), written as a chain in which each descriptor
holds the ones after it. The two branches of `cond` are chains of exactly one descriptor
(checked by `Config.wellFormed`). -/
inductive Schema where
  /-- the end of the descriptor list -/
  | done
  | u8 (name : FieldName) (next : Schema)
  | u16 (name : FieldName) (next : Schema)
  | u32 (name : FieldName) (next : Schema)
  | bytes (name : FieldName) (count : Nat) (next : Schema)
  | rep (name : FieldName) (count : Nat) (sub next : Schema)
  | cond (ref : FieldName) (value : CondValue) (ifEqual ifNot next : Schema)
  | repBySize (name : FieldName) (table : List (Nat × Nat)) (sub next : Schema)
  | rest (name : FieldName) (next : Schema)
  deriving DecidableEq, Repr

/-- `TYPE_CODE`: the type byte of each named packet type (30_encoding.md R64, 92_eei_decisions.md D2). -/
structure TypeCodes where
  synthesize : Byte
  wave : Byte
  addr : Byte
  updateCh : Byte
  machine : Byte
  setOutput : Byte
  getAddr : Byte
  setAddr : Byte
  setCh : Byte
  setV : Byte
  setI : Byte
  setAllAddr : Byte
  startAutoMatch : Byte
  stopAutoMatch : Byte
  resetToDfu : Byte
  rgb : Byte
  getMachine : Byte
  heartbeat : Byte
  err : Byte
  deriving DecidableEq, Repr

/-- `SCHEMA`: the payload layout of each named packet type (30_encoding.md R70 to R72). -/
structure SchemaTable where
  synthesize : Schema
  wave : Schema
  addr : Schema
  updateCh : Schema
  machine : Schema
  setOutput : Schema
  getAddr : Schema
  setAddr : Schema
  setCh : Schema
  setV : Schema
  setI : Schema
  setAllAddr : Schema
  startAutoMatch : Schema
  stopAutoMatch : Schema
  resetToDfu : Schema
  rgb : Schema
  getMachine : Schema
  heartbeat : Schema
  err : Schema
  deriving DecidableEq, Repr

/-- `EXCESS_PAYLOAD` (41_validator_dispatch.md R130, 92_eei_decisions.md D9). -/
inductive ExcessPolicy where
  | reject
  | ignore
  deriving DecidableEq, Repr

/-- The configuration record (00_scope.md R7), fixed before `RESET` and written by no operation
(70_reset_and_hazards.md R242). -/
structure Config where
  /-- `DISCARD_BOUND` -/
  discardBound : Nat
  /-- `TYPE_MIN` -/
  typeMin : Byte
  /-- `TYPE_MAX` -/
  typeMax : Byte
  /-- `TYPE_CODE` -/
  typeCode : TypeCodes
  /-- `LOAD_KIND` -/
  loadKind : Nat
  /-- `EXCESS_PAYLOAD` -/
  excess : ExcessPolicy
  /-- `SCHEMA` -/
  schema : SchemaTable
  deriving DecidableEq, Repr

/-! ## Free values (log entries 11 and 19)

The first two: what a record rule reads where the configured schema row yields no such field, or yields it in another shape: the spec gives the record
and states no value. Nothing constrains these; they depend on the frame and the place alone, because `Decode` "gives the same event for
the same bytes every time" (41_validator_dispatch.md R126). The default schema table never reaches them. -/

/-- An unstated number: of this frame, in the sub-record at this path of indices, under this name. -/
opaque Config.unstatedNat (cfg : Config) (frame : List Byte) (path : List Nat) (name : FieldName) : Nat

/-- An unstated byte sequence, likewise. -/
opaque Config.unstatedBytes (cfg : Config) (frame : List Byte) (path : List Nat) (name : FieldName) : List Byte

/-- The number a `COND` at this cursor compares where the record being built has no field of the name it refers to: the field of an earlier
`COND`'s branch that was not read (log entry 19). -/
opaque Config.unstatedRef (cfg : Config) (frame : List Byte) (pos : Nat) (ref : FieldName) : Nat

end Sys2Proof
end

