-- ==== Sys2Proof/Machine/Parameters.lean ====
section
/-!
DEFINITION. The constants of 00_scope.md R7, the default values of its parameters (30_encoding.md R64, R65, R70 to R72), and
the conditions a configuration must meet (70_reset_and_hazards.md R243, 92_eei_decisions.md D19).
-/

namespace Sys2Proof

/-! ## Constants (00_scope.md R7) -/

/-- Both bytes of `MAGIC`. -/
def magicByte : Byte := 0x5A
/-- `HEADER_LEN`. -/
def headerLen : Nat := 6
/-- `SIZE_MIN`. -/
def sizeMin : Nat := 6
/-- `SIZE_MAX` (conflict C2: 255, not 256). -/
def sizeMax : Nat := 255
/-- The longest payload: `SIZE_MAX - HEADER_LEN` (44_encoder_boundary.md R201). -/
def maxPayload : Nat := 249
/-- `UNADDRESSED`, the channel byte of commands that are not per-channel (44_encoder_boundary.md R202). -/
def unaddressed : Byte := 0xEE
/-- `N_CHANNELS`. -/
def nChannels : Nat := 6
/-- `N_WAVE_GROUPS`. -/
def nWaveGroups : Nat := 10
/-- `WAVE_SIZE_TABLE`: frame size ⇒ items per group. -/
def waveSizeTable : List (Nat × Nat) := [(126, 2), (206, 4)]
/-- `ADDR_LEN`. -/
def addrLen : Nat := 5
/-- `FREQ_BASE_MHZ`. -/
def freqBaseMhz : Nat := 2400
/-- `DISPLAY_TYPE`. -/
def displayType : Nat := 0x10
/-- `N_MACHINE_KINDS`. The kinds' values are not given, so no rule tests a device type against it (42_reports.md R150 (b)). -/
def nMachineKinds : Nat := 4

/-! ## The named packet types -/

/-- All nineteen, in the order of their default codes (30_encoding.md R64). -/
def PacketType.all : List PacketType :=
  [.synthesize, .wave, .addr, .updateCh, .machine, .setOutput, .getAddr, .setAddr, .setCh, .setV, .setI,
   .setAllAddr, .startAutoMatch, .stopAutoMatch, .resetToDfu, .rgb, .getMachine, .heartbeat, .err]

/-- The direction column of 30_encoding.md R64: six reports, thirteen commands. -/
def PacketType.direction : PacketType → Direction
  | .synthesize | .wave | .addr | .updateCh | .machine | .err => .report
  | .setOutput | .getAddr | .setAddr | .setCh | .setV | .setI | .setAllAddr
  | .startAutoMatch | .stopAutoMatch | .resetToDfu | .rgb | .getMachine | .heartbeat => .command

/-- The type byte of a named packet type under a code table. -/
def TypeCodes.code (c : TypeCodes) : PacketType → Byte
  | .synthesize => c.synthesize
  | .wave => c.wave
  | .addr => c.addr
  | .updateCh => c.updateCh
  | .machine => c.machine
  | .setOutput => c.setOutput
  | .getAddr => c.getAddr
  | .setAddr => c.setAddr
  | .setCh => c.setCh
  | .setV => c.setV
  | .setI => c.setI
  | .setAllAddr => c.setAllAddr
  | .startAutoMatch => c.startAutoMatch
  | .stopAutoMatch => c.stopAutoMatch
  | .resetToDfu => c.resetToDfu
  | .rgb => c.rgb
  | .getMachine => c.getMachine
  | .heartbeat => c.heartbeat
  | .err => c.err

/-- The named packet type a type byte is the code of, if it is the code of one (41_validator_dispatch.md R125). -/
def TypeCodes.typeOf? (c : TypeCodes) (t : Byte) : Option PacketType :=
  PacketType.all.find? fun m => c.code m == t

/-- The schema of a named packet type. -/
def SchemaTable.row (t : SchemaTable) : PacketType → Schema
  | .synthesize => t.synthesize
  | .wave => t.wave
  | .addr => t.addr
  | .updateCh => t.updateCh
  | .machine => t.machine
  | .setOutput => t.setOutput
  | .getAddr => t.getAddr
  | .setAddr => t.setAddr
  | .setCh => t.setCh
  | .setV => t.setV
  | .setI => t.setI
  | .setAllAddr => t.setAllAddr
  | .startAutoMatch => t.startAutoMatch
  | .stopAutoMatch => t.stopAutoMatch
  | .resetToDfu => t.resetToDfu
  | .rgb => t.rgb
  | .getMachine => t.getMachine
  | .heartbeat => t.heartbeat
  | .err => t.err

/-! ## Default values -/

/-- 30_encoding.md R64. `0x1A` and `0x22` are the source's; the other seventeen are the spec's decision D2. -/
def TypeCodes.default : TypeCodes where
  synthesize := 0x11
  wave := 0x12
  addr := 0x13
  updateCh := 0x14
  machine := 0x15
  setOutput := 0x16
  getAddr := 0x17
  setAddr := 0x18
  setCh := 0x19
  setV := 0x1A
  setI := 0x1B
  setAllAddr := 0x1C
  startAutoMatch := 0x1D
  stopAutoMatch := 0x1E
  resetToDfu := 0x1F
  rgb := 0x20
  getMachine := 0x21
  heartbeat := 0x22
  err := 0x23

/-- The 23-byte slot of a synthesize frame (30_encoding.md R70, decision D4). -/
def Schema.synthesizeSlot : Schema :=
  .u8 .online <| .u8 .deviceType <| .u8 .output <| .u8 .lock <|
  .cond .deviceType .loadKind (.u8 .loadStatus .done) (.u8 .psuStatus .done) <|
  .u16 .outVoltage <| .u16 .outCurrent <| .u16 .inVoltage <| .u16 .inCurrent <|
  .u16 .setVoltage <| .u16 .setCurrent <| .u16 .temperature <| .bytes .color 3 <| .u8 .error .done

/-- `SYNTHESIZE` (30_encoding.md R70): six slots. -/
def Schema.synthesize : Schema := .rep .slots nChannels Schema.synthesizeSlot .done

/-- `WAVE` (30_encoding.md R70): ten groups, the item count taken from the frame size. -/
def Schema.wave : Schema :=
  .rep .groups nWaveGroups
    (.u32 .timestamp <| .repBySize .items waveSizeTable (.u16 .voltage <| .u16 .current .done) .done) .done

/-- An address entry as the `ADDR` report orders it: `addr4` first (20_memory.md R41, 30_encoding.md R70). -/
def Schema.entryReversed : Schema :=
  .u8 .addr4 <| .u8 .addr3 <| .u8 .addr2 <| .u8 .addr1 <| .u8 .addr0 <| .u8 .freqOffset .done

/-- An address entry as the two commands order it: `addr0` first (20_memory.md R41, 30_encoding.md R71). -/
def Schema.entryNatural : Schema :=
  .u8 .addr0 <| .u8 .addr1 <| .u8 .addr2 <| .u8 .addr3 <| .u8 .addr4 <| .u8 .freqOffset .done

/-- `ADDR` (30_encoding.md R70). -/
def Schema.addr : Schema := .rep .entries nChannels Schema.entryReversed .done

/-- `MACHINE` (30_encoding.md R70). -/
def Schema.machine : Schema := .u8 .machineType .done

/-- `SET_V` and `SET_I` (30_encoding.md R71). -/
def Schema.voltageCurrent : Schema := .u16 .voltage <| .u16 .current .done

/-- `SET_ALL_ADDR` (30_encoding.md R71). -/
def Schema.setAllAddr : Schema := .rep .entries nChannels Schema.entryNatural .done

/-- The ten types whose payload the source does not describe (30_encoding.md R72, decision D8). -/
def Schema.restPayload : Schema := .rest .payload .done

/-- The default schema table (30_encoding.md R70 to R72). -/
def SchemaTable.default : SchemaTable where
  synthesize := Schema.synthesize
  wave := Schema.wave
  addr := Schema.addr
  updateCh := Schema.restPayload
  machine := Schema.machine
  setOutput := Schema.restPayload
  getAddr := Schema.restPayload
  setAddr := Schema.entryNatural
  setCh := Schema.restPayload
  setV := Schema.voltageCurrent
  setI := Schema.voltageCurrent
  setAllAddr := Schema.setAllAddr
  startAutoMatch := Schema.restPayload
  stopAutoMatch := Schema.restPayload
  resetToDfu := Schema.restPayload
  rgb := Schema.restPayload
  getMachine := Schema.restPayload
  heartbeat := .done
  err := Schema.restPayload

/-- Every parameter at its default (00_scope.md R7). -/
def Config.default : Config where
  discardBound := 256
  typeMin := 0x11
  typeMax := 0x23
  typeCode := TypeCodes.default
  loadKind := 3
  excess := .reject
  schema := SchemaTable.default

/-- `BUF_CAP`, derived: the most a byte-serial instance ever holds (10_state.md R22, decision D12). -/
def Config.bufCap (cfg : Config) : Nat := max (cfg.discardBound + 1) sizeMax

/-- The number a `COND` compares with. -/
def CondValue.value (cfg : Config) : CondValue → Nat
  | .literal n => n
  | .loadKind => cfg.loadKind

/-! ## Well-formedness of a configuration (70_reset_and_hazards.md R243 (1), decision D19) -/

/-- Is this the end of the descriptor list? -/
def Schema.isDone : Schema → Bool
  | .done => true
  | _ => false

/-- Does the chain hold exactly one descriptor? -/
def Schema.isSingle : Schema → Bool
  | .done => false
  | .u8 _ next | .u16 _ next | .u32 _ next | .bytes _ _ next | .rep _ _ _ next | .cond _ _ _ _ next
  | .repBySize _ _ _ next | .rest _ next => next.isDone

/-- The field names the descriptors of this list can bind; of a `COND`, those of either branch. The fields of a sub-schema are not among
them. -/
def Schema.names : Schema → List FieldName
  | .done => []
  | .u8 n next | .u16 n next | .u32 n next | .bytes n _ next | .rep n _ _ next | .repBySize n _ _ next | .rest n next => n :: next.names
  | .cond _ _ a b next => a.names ++ b.names ++ next.names

/-- Every `COND` refers to a field that precedes it in the same sub-schema (`seen`), of whatever kind, and each of its branches is one
descriptor (30_encoding.md R68). -/
def Schema.condsPrecede : Schema → List FieldName → Bool
  | .done, _ => true
  | .u8 n next, seen | .u16 n next, seen | .u32 n next, seen | .bytes n _ next, seen | .rest n next, seen =>
    next.condsPrecede (n :: seen)
  | .rep n _ sub next, seen | .repBySize n _ sub next, seen => sub.condsPrecede [] && next.condsPrecede (n :: seen)
  | .cond ref _ a b next, seen =>
    seen.contains ref && a.isSingle && b.isSingle && a.condsPrecede seen && b.condsPrecede seen &&
      next.condsPrecede (a.names ++ b.names ++ seen)

/-- `REST` occurs only as the last descriptor of a top-level schema (`top`). -/
def Schema.restLast : Schema → Bool → Bool
  | .done, _ => true
  | .u8 _ next, top | .u16 _ next, top | .u32 _ next, top | .bytes _ _ next, top => next.restLast top
  | .rep _ _ sub next, top | .repBySize _ _ sub next, top => sub.restLast false && next.restLast top
  | .cond _ _ a b next, top => a.restLast false && b.restLast false && next.restLast top
  | .rest _ next, top => top && next.isDone

/-- Every code of `TYPE_CODE` lies in `TYPE_MIN..TYPE_MAX`. -/
def Config.codesInRange (cfg : Config) : Bool :=
  PacketType.all.all fun m => cfg.typeMin ≤ cfg.typeCode.code m && cfg.typeCode.code m ≤ cfg.typeMax

/-- `TYPE_CODE` is injective. -/
def TypeCodes.injective (c : TypeCodes) : Bool := decide (PacketType.all.map c.code).Nodup

/-- The conditions of 70_reset_and_hazards.md R243 (1). A configuration that fails them is refused, not given a meaning
(92_eei_decisions.md, the table of directions, D19). -/
def Config.wellFormed (cfg : Config) : Bool :=
  decide (1 ≤ cfg.discardBound) && cfg.codesInRange && cfg.typeCode.injective &&
    PacketType.all.all fun m => (cfg.schema.row m).condsPrecede [] && (cfg.schema.row m).restLast true

end Sys2Proof
end

