-- ==== Sys2Proof/Machine/State.lean ====
section
/-!
DEFINITION. The state of the block as plain data, the records and events it emits, the operations the environment issues, and the
state right after reset. The spec's state is `buf` (10_state.md R20) and the fixed configuration record (00_scope.md R7);
`inbox` and `events` are the model's own, the input and the output of a run (00_scope.md R10; log entries 2 and 3).
-/

namespace Sys2Proof.Machine

/-! ## Records (41_validator_dispatch.md R134: every converted field appears raw and derived) -/

/-- An exact non-negative quotient in lowest terms (41_validator_dispatch.md R137, log entry 15), so that equal
quotients are equal data. -/
structure Fraction where
  num : Nat
  den : Nat
  deriving DecidableEq, Repr

/-- The status code of a slot, named by its device-type tag (30_encoding.md R69, 42_reports.md R150). -/
inductive SlotStatus where
  | load (code : Nat)
  | psu (code : Nat)
  deriving DecidableEq, Repr

/-- One slot of a synthesize record (42_reports.md R150). -/
structure SynthSlot where
  onlineRaw : Nat
  online : Bool
  deviceType : Nat
  outputRaw : Nat
  output : Bool
  lockRaw : Nat
  lock : Bool
  status : SlotStatus
  outVoltageRaw : Nat
  outVoltageV : Fraction
  outCurrentRaw : Nat
  outCurrentA : Fraction
  inVoltageRaw : Nat
  inVoltageV : Fraction
  inCurrentRaw : Nat
  inCurrentA : Fraction
  setVoltageRaw : Nat
  setVoltageV : Fraction
  setCurrentRaw : Nat
  setCurrentA : Fraction
  temperatureRaw : Nat
  temperatureC : Fraction
  /-- three reserved bytes, wire order, uninterpreted -/
  color : List Byte
  /-- uninterpreted -/
  error : Nat
  deriving DecidableEq, Repr

/-- One voltage/current sample pair of a wave group (42_reports.md R151). -/
structure WaveItem where
  voltageRaw : Nat
  voltageV : Fraction
  currentRaw : Nat
  currentA : Fraction
  deriving DecidableEq, Repr

/-- One group of a wave record (42_reports.md R151). The timestamp has no unit (93_implementation_defined.md U12). -/
structure WaveGroup where
  timestamp : Nat
  items : List WaveItem
  deriving DecidableEq, Repr

/-- One address entry (41_validator_dispatch.md R139, R140). -/
structure AddrEntry where
  /-- the logical address `[addr0, addr1, addr2, addr3, addr4]` -/
  address : List Nat
  freqOffset : Nat
  freqMhz : Nat
  empty : Bool
  deriving DecidableEq, Repr

/-- The two product variants (41_validator_dispatch.md R141). -/
inductive Variant where
  | withDisplay
  | plain
  deriving DecidableEq, Repr

/-- A typed record: the closed sum of 41_validator_dispatch.md R125, one constructor per mnemonic plus `OPAQUE`, each
carrying the header's channel byte raw (R134). -/
inductive Record where
  | synthesize (channel : Byte) (slots : List SynthSlot)
  | wave (channel : Byte) (itemsPerGroup : Nat) (groups : List WaveGroup)
  | addr (channel : Byte) (entries : List AddrEntry)
  | updateCh (channel : Byte) (payload : List Byte)
  | machine (channel : Byte) (machineType : Nat) (variant : Variant) (hasDisplay : Bool)
  | err (channel : Byte) (payload : List Byte)
  | getMachine (channel : Byte) (payload : List Byte)
  | getAddr (channel : Byte) (payload : List Byte)
  | setCh (channel : Byte) (payload : List Byte)
  | setV (channel : Byte) (voltageRaw : Nat) (voltageV : Fraction) (currentRaw : Nat) (currentA : Fraction)
  | setI (channel : Byte) (voltageRaw : Nat) (voltageV : Fraction) (currentRaw : Nat) (currentA : Fraction)
  | setAddr (channel : Byte) (entry : AddrEntry)
  | setAllAddr (channel : Byte) (entries : List AddrEntry)
  | setOutput (channel : Byte) (payload : List Byte)
  | startAutoMatch (channel : Byte) (payload : List Byte)
  | stopAutoMatch (channel : Byte) (payload : List Byte)
  | resetToDfu (channel : Byte) (payload : List Byte)
  | rgb (channel : Byte) (payload : List Byte)
  | heartbeat (channel : Byte)
  | opaquePacket (typeByte channel : Byte) (payload : List Byte)
  deriving DecidableEq, Repr

/-- What the block puts out: a record, or a failure carrying its kind and nothing else (00_scope.md R10, 60_exceptions.md R220). -/
inductive Event where
  | record (r : Record)
  | fail (k : FailKind)
  deriving DecidableEq, Repr

/-- The five operations the environment issues (00_scope.md R10, 40_assembler.md section 1). They have no encoding. -/
inductive Operation where
  | reset
  | clear
  | append (chunk : List Byte)
  | push (b : Byte)
  | decode (frame : List Byte)
  deriving DecidableEq, Repr

/-- The state of the machine. -/
structure State where
  /-- the pending-byte buffer, head first (10_state.md R20) -/
  buf : List Byte
  /-- the configuration record (00_scope.md R7); no operation writes it (70_reset_and_hazards.md R242) -/
  cfg : Config
  /-- the model's own: operations issued and not begun, oldest first (log entry 2) -/
  inbox : List Operation
  /-- the model's own: events delivered so far, oldest first (log entry 3) -/
  events : List Event
  deriving DecidableEq, Repr

/-- The machine's faults: none. "There is no fault state, no 'halted' condition and no operation that is illegal in any state"
(60_exceptions.md R229); a decode failure is an `Event`. Nothing raises a fault, so the type is empty: safe (log entry 14). -/
inductive Fault
  deriving DecidableEq, Repr

/-- Why the machine gives a run no meaning. -/
inductive Refusal where
  /-- An instruction without a meaning. Raised by an arm of `exec` that has none (no arm is left so). Safe: the run stops. -/
  | notModelled (mnemonic : String)
  /-- The configuration fails 70_reset_and_hazards.md R243 (1): "an ill-formed configuration is refused, not given a meaning"
  (92_eei_decisions.md, D19). Raised by `advance` before any operation. Safe: the run stops (log entry 10). -/
  | illFormedConfiguration
  deriving DecidableEq, Repr

/-- The machine right after `RESET`: `buf = []` is the whole reset state (70_reset_and_hazards.md R240), the configuration is at the
defaults of 00_scope.md R7, nothing is pending and nothing has been delivered. -/
def State.reset : State where
  buf := []
  cfg := Config.default
  inbox := []
  events := []

end Sys2Proof.Machine
end

