-- ==== Sys2Proof/Machine/Flags.lean ====
section
/-!
DEFINITION. The booleans the spec computes from raw bytes (41_validator_dispatch.md R138, R140, R141). They are fields of an emitted record,
never state (10_state.md R25); the comparison of each flag is its own and is not unified with another's.
-/

namespace Sys2Proof.Machine

/-- `online` is true iff the raw byte is not zero (41_validator_dispatch.md R138). -/
def flagOnline (raw : Nat) : Bool := raw != 0

/-- `output` is true iff the raw byte is not zero (41_validator_dispatch.md R138). -/
def flagOutput (raw : Nat) : Bool := raw != 0

/-- `lock` is true iff the raw byte equals 1 (41_validator_dispatch.md R138). -/
def flagLock (raw : Nat) : Bool := raw == 1

/-- An address entry is empty iff all five address bytes are zero; the frequency offset does not enter
(41_validator_dispatch.md R140). -/
def addressEmpty (address : List Nat) : Bool := address.all (· == 0)

/-- `has_display` iff the machine type byte is `0x10` (41_validator_dispatch.md R141). -/
def hasDisplay (machineType : Nat) : Bool := machineType == displayType

/-- The device variant (41_validator_dispatch.md R141). -/
def variantOf (machineType : Nat) : Variant := if machineType = displayType then .withDisplay else .plain

end Sys2Proof.Machine
end

