-- ==== Sys2Proof/Machine/Bytes.lean ====
section
/-!
DEFINITION. The byte-level helpers every layer shares: the XOR checksum, the little-endian order (decided here and
nowhere else), and the reads of frame space.
-/

namespace Sys2Proof.Machine

/-- `xor_reduce(s)`: all bytes XORed together starting from `0x00` (00_scope.md R9, 41_validator_dispatch.md R124). -/
def xorReduce : List Byte → Byte
  | [] => 0
  | b :: bs => b ^^^ xorReduce bs

/-- The number a little-endian byte run stands for: `b0 + 256*b1 + 65536*b2 + …` (20_memory.md R40). -/
def leValue : List Byte → Nat
  | [] => 0
  | b :: bs => b.toNat + 256 * leValue bs

/-- The first `n` little-endian bytes of a number (44_encoder_boundary.md R203; the encoder's packing). -/
def leBytes : Nat → Nat → List Byte
  | 0, _ => []
  | n + 1, v => BitVec.ofNat 8 v :: leBytes n (v / 256)

/-- `s[a..b)`, the half-open slice (00_scope.md R8). -/
def slice (s : List Byte) (a b : Nat) : List Byte := (s.drop a).take (b - a)

/-- `MemRead(addr, n)`: the unsigned little-endian number in the `n` bytes of the frame at index `addr`
(00_scope.md R9). Its callers have checked `addr + n <= len(f)`. -/
def memRead (f : List Byte) (addr n : Nat) : Nat := leValue (slice f addr (addr + n))

end Sys2Proof.Machine
end

