-- ==== Sys2Proof/Machine/Operands.lean ====
section
/-!
DEFINITION. The operands of an instruction: the schema interpreter of 41_validator_dispatch.md R128, which reads every operand form of
30_encoding.md R68 with a cursor that starts at frame index 6, and the conversions of R136, R137 and R139. No type is treated specially
here (30_encoding.md R68: the conditional kinds are "supported generically, not special-cased per type").
-/

namespace Sys2Proof.Machine

/-! ## The value tree (41_validator_dispatch.md R128) -/

/-- A value of a record tree: a natural number, a byte sequence, or a list of sub-records. -/
inductive Value where
  | nat (n : Nat)
  | bytes (b : List Byte)
  | recs (rs : List (List (FieldName × Value)))
  deriving Repr

/-- A record tree: a map from field names to values. The newest binding of a name stands first and is the one that counts, as
`rec[name] <- v` overwrites. -/
abbrev Rec := List (FieldName × Value)

/-- The value bound to a name. -/
def Rec.find? : Rec → FieldName → Option Value
  | [], _ => none
  | (m, v) :: r, n => if m = n then some v else Rec.find? r n

/-- The number bound to a name. -/
def Rec.nat? (r : Rec) (n : FieldName) : Option Nat :=
  match r.find? n with
  | some (.nat v) => some v
  | _ => none

/-- The byte run bound to a name. -/
def Rec.bytes? (r : Rec) (n : FieldName) : Option (List Byte) :=
  match r.find? n with
  | some (.bytes v) => some v
  | _ => none

/-- The sub-records bound to a name. -/
def Rec.recs? (r : Rec) (n : FieldName) : Option (List Rec) :=
  match r.find? n with
  | some (.recs v) => some v
  | _ => none

/-- Apply a partial function to every element, in order. -/
def mapAll {α β : Type} (g : α → Option β) : List α → Option (List β)
  | [] => some []
  | a :: as =>
    match g a, mapAll g as with
    | some b, some bs => some (b :: bs)
    | _, _ => none

/-! ## The interpreter -/

/-- `Need(k)`: the descriptor needs `k` bytes at the cursor (41_validator_dispatch.md R129). -/
def need (f : List Byte) (pos k : Nat) : Except FailKind Unit :=
  if pos + k ≤ f.length then .ok () else .error .layout

/-- `REPEAT`: read a sub-record `count` times, index 0 first (41_validator_dispatch.md R132). -/
def readMany (readOne : Nat → Except FailKind (Rec × Nat)) : Nat → Nat → Except FailKind (List Rec × Nat)
  | 0, pos => .ok ([], pos)
  | n + 1, pos => do
    let (r, pos) ← readOne pos
    let (rs, pos) ← readMany readOne n pos
    .ok (r :: rs, pos)

/-- The count a size table gives a frame length, if the length is a key of it (41_validator_dispatch.md R132). -/
def countBySize (table : List (Nat × Nat)) (len : Nat) : Option Nat :=
  (table.find? fun row => row.1 == len).map (·.2)

/-- `rec[ref] = v` of a `COND`: "equality of natural numbers" (41_validator_dispatch.md R131), so a reference bound to a byte run or a list
is not equal to `v`. Where the record has no field of that name the spec states no value, and the number compared is free (log entry 19). -/
def refEquals (cfg : Config) (f : List Byte) (pos : Nat) (r : Rec) (ref : FieldName) (v : Nat) : Bool :=
  match r.find? ref with
  | some (.nat n) => n == v
  | some (.bytes _) | some (.recs _) => false
  | none => cfg.unstatedRef f pos ref == v

/-- `ReadSchema(S, f)`: from the cursor and the record so far, the record and the cursor after the schema
(41_validator_dispatch.md R128 to R133). -/
def readSchema (cfg : Config) (f : List Byte) : Schema → Nat → Rec → Except FailKind (Rec × Nat)
  | .done, pos, r => .ok (r, pos)
  | .u8 name next, pos, r => do
    need f pos 1
    readSchema cfg f next (pos + 1) ((name, .nat (memRead f pos 1)) :: r)
  | .u16 name next, pos, r => do
    need f pos 2
    readSchema cfg f next (pos + 2) ((name, .nat (memRead f pos 2)) :: r)
  | .u32 name next, pos, r => do
    need f pos 4
    readSchema cfg f next (pos + 4) ((name, .nat (memRead f pos 4)) :: r)
  | .bytes name k next, pos, r => do
    need f pos k
    readSchema cfg f next (pos + k) ((name, .bytes (slice f pos (pos + k))) :: r)
  | .rep name count sub next, pos, r => do
    let (rs, pos) ← readMany (fun p => readSchema cfg f sub p []) count pos
    readSchema cfg f next pos ((name, .recs rs) :: r)
  | .cond ref value a b next, pos, r => do
    let (r, pos) ← (if refEquals cfg f pos r ref (value.value cfg) then readSchema cfg f a pos r else readSchema cfg f b pos r)
    readSchema cfg f next pos r
  | .repBySize name table sub next, pos, r =>
    match countBySize table f.length with
    | none => .error .layout
    | some count => do
      let (rs, pos) ← readMany (fun p => readSchema cfg f sub p []) count pos
      readSchema cfg f next pos ((name, .recs rs) :: r)
  | .rest name next, pos, r =>
    readSchema cfg f next f.length ((name, .bytes (f.drop pos)) :: r)

/-- `Interpret(S, f)`: the cursor starts behind the header; bytes left over fail under `reject` and are left out under `ignore`
(41_validator_dispatch.md R128, R130). -/
def interpret (cfg : Config) (sch : Schema) (f : List Byte) : Except FailKind Rec := do
  let (r, pos) ← readSchema cfg f sch headerLen []
  if pos ≠ f.length ∧ cfg.excess = .reject then .error .layout else .ok r

/-! ## Reading the value tree by name

How the record rules of 42_reports.md and 43_commands.md read `r`. A field that is not there in the shape the rule needs is a free value
(log entry 11); a sub-record that is not there is one without fields. -/

/-- A record of the value tree with what fixes its free values: the frame it was read from and its path in the tree. -/
structure View where
  cfg : Config
  frame : List Byte
  path : List Nat
  fields : Rec

/-- `r.name`, a number. -/
def View.nat (v : View) (name : FieldName) : Nat :=
  match v.fields.nat? name with
  | some n => n
  | none => v.cfg.unstatedNat v.frame v.path name

/-- `r.name`, a byte sequence. -/
def View.bytes (v : View) (name : FieldName) : List Byte :=
  match v.fields.bytes? name with
  | some b => b
  | none => v.cfg.unstatedBytes v.frame v.path name

/-- `len(r.name)`, for a list of sub-records. -/
def View.count (v : View) (name : FieldName) : Nat :=
  match v.fields.recs? name with
  | some rs => rs.length
  | none => v.cfg.unstatedNat v.frame v.path name

/-- `r.name[k]`, a sub-record. -/
def View.sub (v : View) (name : FieldName) (k : Nat) : View where
  cfg := v.cfg
  frame := v.frame
  path := v.path ++ [k]
  fields := (((v.fields.recs? name).getD [])[k]?).getD []

/-- `[ for k = 0 .. n-1: g(r.name[k]) ]`. -/
def View.each {α : Type} (v : View) (name : FieldName) (n : Nat) (g : View → α) : List α :=
  (List.range n).map fun k => g (v.sub name k)

/-! ## Conversions -/

/-- The exact quotient of a raw value, in lowest terms (41_validator_dispatch.md R137). -/
def Fraction.ofRaw (raw divisor : Nat) : Fraction :=
  ⟨raw / Nat.gcd raw divisor, divisor / Nat.gcd raw divisor⟩

/-- Raw millivolts to volts, raw milliamperes to amperes (41_validator_dispatch.md R136). -/
def milli (raw : Nat) : Fraction := Fraction.ofRaw raw 1000

/-- Raw deci-degrees to degrees Celsius (41_validator_dispatch.md R136). -/
def deci (raw : Nat) : Fraction := Fraction.ofRaw raw 10

/-- `freq_mhz = 2400 + freq_offset`, not reduced modulo 256 (41_validator_dispatch.md R139). -/
def freqMhz (offset : Nat) : Nat := freqBaseMhz + offset

end Sys2Proof.Machine
end

