-- ==== Sys2Proof/WellFormed.lean ====
section
/-!
DEFINITION. When an instruction is well formed: the invariants of 30_encoding.md R61 on its frame, and, for the fallback
row, that its type byte is no code of the configuration's table.
-/

namespace Sys2Proof

/-- 30_encoding.md R61 (1): `size` equals the total frame length. With `size` one byte this bounds the payload by 249. -/
def Body.sizeOk (b : Body) : Bool := b.size.toNat == headerLen + b.payload.length

/-- 30_encoding.md R61 (2): `checksum` equals the XOR of the payload bytes. -/
def Body.checksumOk (b : Body) : Bool := Machine.xorReduce b.payload == b.checksum

/-- Both invariants of 30_encoding.md R61. -/
def Body.wellFormed (b : Body) : Bool := b.sizeOk && b.checksumOk

/-- Everything of an instruction's frame but its type. -/
def Instr.body : Instr → Body
  | .synthesize b | .wave b | .addr b | .updateCh b | .machine b | .setOutput b | .getAddr b | .setAddr b
  | .setCh b | .setV b | .setI b | .setAllAddr b | .startAutoMatch b | .stopAutoMatch b | .resetToDfu b
  | .rgb b | .getMachine b | .heartbeat b | .err b | .opaquePacket _ b => b

/-- The fallback row is taken only when no other row matches (30_encoding.md R75, 43_commands.md R183). -/
def Instr.typeOk (cfg : Config) : Instr → Bool
  | .opaquePacket t _ => (cfg.typeCode.typeOf? t).isNone
  | .synthesize _ | .wave _ | .addr _ | .updateCh _ | .machine _ | .setOutput _ | .getAddr _ | .setAddr _
  | .setCh _ | .setV _ | .setI _ | .setAllAddr _ | .startAutoMatch _ | .stopAutoMatch _ | .resetToDfu _
  | .rgb _ | .getMachine _ | .heartbeat _ | .err _ => true

/-- A well-formed instruction: its frame is a well-formed frame and its constructor is the one its type byte selects. -/
def Instr.wellFormed (cfg : Config) (i : Instr) : Bool := i.body.wellFormed && i.typeOk cfg

end Sys2Proof
end

