-- ==== Sys2Proof/Decode.lean ====
section
/-!
DEFINITION. The decoder: total on any bytes, answering an instruction or the name of the failure (the magic check of
41_validator_dispatch.md R120, the part of the size check of R121 that asks for a whole header, and the dispatch of R125).
The size and checksum tests of a whole header are made when the instruction runs (Machine/Decoder.lean), because the
opcode table selects a row by magic and type alone (30_encoding.md R75). After it the encoder, from the same layout, and
the words of opcode_table.json.
-/

namespace Sys2Proof

/-- The instruction of a named packet type. -/
def Instr.ofType : PacketType → Body → Instr
  | .synthesize, b => .synthesize b
  | .wave, b => .wave b
  | .addr, b => .addr b
  | .updateCh, b => .updateCh b
  | .machine, b => .machine b
  | .setOutput, b => .setOutput b
  | .getAddr, b => .getAddr b
  | .setAddr, b => .setAddr b
  | .setCh, b => .setCh b
  | .setV, b => .setV b
  | .setI, b => .setI b
  | .setAllAddr, b => .setAllAddr b
  | .startAutoMatch, b => .startAutoMatch b
  | .stopAutoMatch, b => .stopAutoMatch b
  | .resetToDfu, b => .resetToDfu b
  | .rgb, b => .rgb b
  | .getMachine, b => .getMachine b
  | .heartbeat, b => .heartbeat b
  | .err, b => .err b

/-- Dispatch on the type byte (41_validator_dispatch.md R125, R127): it reads nothing else. -/
def dispatch (cfg : Config) (t : Byte) (b : Body) : Instr :=
  match cfg.typeCode.typeOf? t with
  | some m => Instr.ofType m b
  | none => .opaquePacket t b

/-- The instruction in a byte sequence of any length, or the failure that stops it from being one: no magic
(41_validator_dispatch.md R120), or fewer than six bytes after a good magic (R121). -/
def decode (cfg : Config) : List Byte → Except FailKind Instr
  | m0 :: m1 :: t :: size :: channel :: checksum :: payload =>
    if m0 = magicByte ∧ m1 = magicByte then .ok (dispatch cfg t ⟨size, channel, checksum, payload⟩)
    else .error .magic
  | m0 :: m1 :: _ => if m0 = magicByte ∧ m1 = magicByte then .error .size else .error .magic
  | _ => .error .magic

/-- The numeric code of a failure kind (60_exceptions.md R220). A label: no rule does arithmetic on it. -/
def FailKind.code : FailKind → Nat
  | .magic => 1
  | .size => 2
  | .checksum => 3
  | .layout => 4

/-- The reporting class of a failure kind: checksum, or structural (41_validator_dispatch.md R123). -/
def FailKind.isStructural : FailKind → Bool
  | .magic | .size | .layout => true
  | .checksum => false

/-! ## Encoding -/

/-- The named packet type of an instruction; none for the fallback row. -/
def Instr.packetType? : Instr → Option PacketType
  | .synthesize _ => some .synthesize
  | .wave _ => some .wave
  | .addr _ => some .addr
  | .updateCh _ => some .updateCh
  | .machine _ => some .machine
  | .setOutput _ => some .setOutput
  | .getAddr _ => some .getAddr
  | .setAddr _ => some .setAddr
  | .setCh _ => some .setCh
  | .setV _ => some .setV
  | .setI _ => some .setI
  | .setAllAddr _ => some .setAllAddr
  | .startAutoMatch _ => some .startAutoMatch
  | .stopAutoMatch _ => some .stopAutoMatch
  | .resetToDfu _ => some .resetToDfu
  | .rgb _ => some .rgb
  | .getMachine _ => some .getMachine
  | .heartbeat _ => some .heartbeat
  | .err _ => some .err
  | .opaquePacket _ _ => none

/-- The type byte of an instruction under a configuration. -/
def Instr.typeByte (cfg : Config) : Instr → Byte
  | .opaquePacket t _ => t
  | .synthesize _ => cfg.typeCode.synthesize
  | .wave _ => cfg.typeCode.wave
  | .addr _ => cfg.typeCode.addr
  | .updateCh _ => cfg.typeCode.updateCh
  | .machine _ => cfg.typeCode.machine
  | .setOutput _ => cfg.typeCode.setOutput
  | .getAddr _ => cfg.typeCode.getAddr
  | .setAddr _ => cfg.typeCode.setAddr
  | .setCh _ => cfg.typeCode.setCh
  | .setV _ => cfg.typeCode.setV
  | .setI _ => cfg.typeCode.setI
  | .setAllAddr _ => cfg.typeCode.setAllAddr
  | .startAutoMatch _ => cfg.typeCode.startAutoMatch
  | .stopAutoMatch _ => cfg.typeCode.stopAutoMatch
  | .resetToDfu _ => cfg.typeCode.resetToDfu
  | .rgb _ => cfg.typeCode.rgb
  | .getMachine _ => cfg.typeCode.getMachine
  | .heartbeat _ => cfg.typeCode.heartbeat
  | .err _ => cfg.typeCode.err

/-- The bytes of a frame in the order of 20_memory.md R48. -/
def frameBytes (t : Byte) (b : Body) : List Byte :=
  magicByte :: magicByte :: t :: b.size :: b.channel :: b.checksum :: b.payload

/-- The bytes of an instruction (30_encoding.md R60). -/
def encode (cfg : Config) (i : Instr) : List Byte := frameBytes (i.typeByte cfg) i.body

/-- The body `frame(type, channel, payload)` has: size and checksum computed from the payload (44_encoder_boundary.md R201). -/
def Body.ofPayload (channel : Byte) (payload : List Byte) : Body where
  size := BitVec.ofNat 8 (headerLen + payload.length)
  channel := channel
  checksum := Machine.xorReduce payload
  payload := payload

/-- `frame(type, channel, payload)` (30_encoding.md R74, 44_encoder_boundary.md R201). -/
def makeFrame (t channel : Byte) (payload : List Byte) : List Byte := frameBytes t (Body.ofPayload channel payload)

/-! ## The words of opcode_table.json -/

/-- The header word `W` of a frame: its first four bytes, little-endian (30_encoding.md R75). -/
def headerWord (f : List Byte) : Nat := Machine.leValue (f.take 4)

/-- The `mask` of an instruction's row (opcode_table.json). -/
def Instr.tableMask : Instr → Nat
  | .opaquePacket _ _ => 0x0000FFFF
  | .synthesize _ | .wave _ | .addr _ | .updateCh _ | .machine _ | .setOutput _ | .getAddr _ | .setAddr _
  | .setCh _ | .setV _ | .setI _ | .setAllAddr _ | .startAutoMatch _ | .stopAutoMatch _ | .resetToDfu _
  | .rgb _ | .getMachine _ | .heartbeat _ | .err _ => 0x00FFFFFF

/-- The `match` of an instruction's row (opcode_table.json). -/
def Instr.tableMatch : Instr → Nat
  | .synthesize _ => 0x00115A5A
  | .wave _ => 0x00125A5A
  | .addr _ => 0x00135A5A
  | .updateCh _ => 0x00145A5A
  | .machine _ => 0x00155A5A
  | .setOutput _ => 0x00165A5A
  | .getAddr _ => 0x00175A5A
  | .setAddr _ => 0x00185A5A
  | .setCh _ => 0x00195A5A
  | .setV _ => 0x001A5A5A
  | .setI _ => 0x001B5A5A
  | .setAllAddr _ => 0x001C5A5A
  | .startAutoMatch _ => 0x001D5A5A
  | .stopAutoMatch _ => 0x001E5A5A
  | .resetToDfu _ => 0x001F5A5A
  | .rgb _ => 0x00205A5A
  | .getMachine _ => 0x00215A5A
  | .heartbeat _ => 0x00225A5A
  | .err _ => 0x00235A5A
  | .opaquePacket _ _ => 0x00005A5A

/-- The bytes of an instruction whose bits are `w`, numbered as opcode_table.json numbers them: byte `k` of the frame is
bits `8k+7..8k`. Every bit from `nbits` up is 0. The frame is as long as its size byte says, and never
shorter than a header (20_memory.md R48) or than the `nbits` bits given. -/
def frameOfTableWord (nbits w : Nat) : List Byte :=
  let given := Machine.leBytes (max headerLen ((nbits + 7) / 8)) (w % 2 ^ nbits)
  let size := (given[3]?.getD 0).toNat
  given ++ List.replicate (size - given.length) 0

/-- What the decoder reads, under the default parameters, from the instruction whose bits are `w`. -/
def decodeTableWord (nbits w : Nat) : Option Instr :=
  match decode Config.default (frameOfTableWord nbits w) with
  | .ok i => some i
  | .error _ => none

end Sys2Proof
end

