-- ==== Sys2Proof/Machine/Ops.lean ====
section
/-!
DEFINITION. The named operations over the state: the buffer's reads and writes, the delivery of an event, taking a decode failure
(the one shared "exception" of this hardware), the three checks that precede a meaning, and one pass of the Frame Assembler.
-/

namespace Sys2Proof.Machine

/-! ## The buffer (10_state.md R20, R29) -/

/-- The state with another buffer. -/
def State.withBuf (s : State) (b : List Byte) : State := { s with buf := b }

/-- The state with another queue of pending operations. -/
def State.withInbox (s : State) (ops : List Operation) : State := { s with inbox := ops }

/-- Stream space read: the byte at an offset from the head, none at an offset that does not exist (10_state.md R29). -/
def State.readStream (s : State) (offset : Nat) : Option Byte := s.buf[offset]?

/-- `buf <- buf ++ chunk`: the whole chunk at the tail in one step, whatever its length (20_memory.md R46, 10_state.md R22). -/
def State.appendTail (s : State) (chunk : List Byte) : State := s.withBuf (s.buf ++ chunk)

/-- `buf <- []`. -/
def State.emptyBuf (s : State) : State := s.withBuf []

/-- The address space a buffer is: one cell per offset, `0 <= i < len(buf)` (10_state.md R29). -/
def Memory.cellsFrom : Nat → List Byte → List Host.Cell
  | _, [] => []
  | i, b :: bs => (i, b) :: Memory.cellsFrom (i + 1) bs

/-- The cells of the stream space whose bytes are `m`. -/
def Memory.cells (m : List Byte) : List Host.Cell := Memory.cellsFrom 0 m

/-- The canonical form of a memory: addresses strictly rising. -/
def Memory.wf (cells : List Host.Cell) : Bool := decide (cells.Pairwise fun a b => a.1 < b.1)

/-! ## Events -/

/-- `emit e`: the event joins the ordered output (00_scope.md R9, 40_assembler.md R92). -/
def State.emit (s : State) (e : Event) : State := { s with events := s.events ++ [e] }

/-- Taking a decode failure, the one exception entry of this hardware (60_exceptions.md R227): it saves nothing, changes no mode and
transfers control nowhere; the `FAIL` event joins the output and the block goes on. On the stream path the frame's bytes have
left `buf` before. There is no return beside it: "there is no return instruction and nothing to restore" (R229). -/
def takeFailure (k : FailKind) (s : State) : Host.Outcome State Fault Refusal := .next (s.emit (.fail k))

/-- Delivering a finished record. -/
def deliver (r : Record) (s : State) : Host.Outcome State Fault Refusal := .next (s.emit (.record r))

/-! ## Validation (41_validator_dispatch.md R121 to R123) -/

/-- The checks a meaning makes before anything else, in order: `size` against the frame's length (R121), then the checksum over the
payload (R122). The magic was checked when the frame became an instruction. -/
def validate (b : Body) : Except FailKind Unit :=
  if b.size.toNat ≠ headerLen + b.payload.length then .error .size
  else if xorReduce b.payload ≠ b.checksum then .error .checksum
  else .ok ()

/-! ## One pass of the Frame Assembler (40_assembler.md R93) -/

/-- `FindMagic`: the least index at which two magic bytes stand, if there is one. -/
def findMagic : List Byte → Option Nat
  | a :: b :: rest =>
    if a = magicByte ∧ b = magicByte then some 0
    else (findMagic (b :: rest)).map (· + 1)
  | _ => none

/-- Step 4's test: the type in the configured range, the size between `SIZE_MIN` and `SIZE_MAX` (40_assembler.md R97). -/
def plausible (cfg : Config) (t size : Byte) : Bool :=
  cfg.typeMin ≤ t && t ≤ cfg.typeMax && sizeMin ≤ size.toNat && size.toNat ≤ sizeMax

/-- What one pass does to the buffer. -/
inductive PassResult where
  /-- the pass reached a `return` and leaves this buffer -/
  | stop (buf : List Byte)
  /-- the pass reached step 4's `continue` -/
  | retry (buf : List Byte)
  /-- the pass reached step 6: a candidate frame and what is left behind it -/
  | candidate (frame buf : List Byte)
  deriving DecidableEq, Repr

/-- Steps 3 to 6, on a buffer that begins with the magic (40_assembler.md R96 to R99). -/
def headerPass (cfg : Config) (buf : List Byte) : PassResult :=
  match buf with
  | _ :: _ :: t :: size :: _ =>
    if plausible cfg t size then
      if buf.length < size.toNat then .stop buf
      else .candidate (buf.take size.toNat) (buf.drop size.toNat)
    else .retry (buf.drop 1)
  | _ => .stop buf

/-- One pass, steps 1 to 6 (40_assembler.md R94 to R99). -/
def pass (cfg : Config) (buf : List Byte) : PassResult :=
  match findMagic buf with
  | none => .stop (if cfg.discardBound < buf.length then [] else buf)
  | some k => headerPass cfg (buf.drop k)

end Sys2Proof.Machine
end

