-- ==== Sys2Proof/Machine/Decoder.lean ====
section
/-!
DEFINITION. The shape every meaning has (41_validator_dispatch.md R126 after the magic check): validate, interpret the payload with the
type's schema, finish the record, deliver one event. Each instruction's own finishing rule stands in its family's file.
-/

namespace Sys2Proof.Machine

/-- What a packet type's record is, from the channel byte and the interpreted payload: `Finish_m` of 42_reports.md and 43_commands.md. -/
abbrev Finish := Byte → View → Record

/-- A frame of the named type `m`, run: exactly one event, a failure of the first check that fails or the finished record
(41_validator_dispatch.md R123, R126). Nothing of the state but the output changes (43_commands.md R184). -/
def runNamed (m : PacketType) (finish : Finish) (b : Body) (s : State) : Host.Outcome State Fault Refusal :=
  match validate b with
  | .error k => takeFailure k s
  | .ok () =>
    let f := frameBytes (s.cfg.typeCode.code m) b
    match interpret s.cfg (s.cfg.schema.row m) f with
    | .error k => takeFailure k s
    | .ok r => deliver (finish b.channel ⟨s.cfg, f, [], r⟩) s

/-- A frame of an unknown type, run: validated, then passed through raw; no layout check applies
(41_validator_dispatch.md R127, 43_commands.md R183). -/
def runUnknown (t : Byte) (b : Body) (s : State) : Host.Outcome State Fault Refusal :=
  match validate b with
  | .error k => takeFailure k s
  | .ok () => deliver (.opaquePacket t b.channel b.payload) s

/-- The finishing rule shared by the ten types whose payload is raw: the type's own constructor, the channel and the payload
(30_encoding.md R72, 41_validator_dispatch.md R133). -/
def finishRaw (make : Byte → List Byte → Record) : Finish := fun ch r => make ch (r.bytes .payload)

/-- An address entry from its fields by NAME, whatever their wire order (41_validator_dispatch.md R139, R140, 20_memory.md R41). -/
def finishEntry (e : View) : AddrEntry where
  address := [e.nat .addr0, e.nat .addr1, e.nat .addr2, e.nat .addr3, e.nat .addr4]
  freqOffset := e.nat .freqOffset
  freqMhz := freqMhz (e.nat .freqOffset)
  empty := addressEmpty [e.nat .addr0, e.nat .addr1, e.nat .addr2, e.nat .addr3, e.nat .addr4]

end Sys2Proof.Machine
end

