-- ==== Sys2Proof/Machine/Commands.lean ====
section
/-!
DEFINITION. The meanings of the thirteen command types and of the fallback (43_commands.md R170 to R183). The block decodes a command and
never executes it: "decoding a command has no effect on the block" (R184).
-/

namespace Sys2Proof.Machine

/-- `GET_MACHINE` (43_commands.md R170). -/
def execGetMachine (b : Body) (s : State) : Host.Outcome State Fault Refusal :=
  runNamed .getMachine (finishRaw .getMachine) b s

/-- `GET_ADDR` (43_commands.md R171). -/
def execGetAddr (b : Body) (s : State) : Host.Outcome State Fault Refusal :=
  runNamed .getAddr (finishRaw .getAddr) b s

/-- `SET_CH` (43_commands.md R172): both the channel byte and the payload are in the record. -/
def execSetCh (b : Body) (s : State) : Host.Outcome State Fault Refusal :=
  runNamed .setCh (finishRaw .setCh) b s

/-- `Finish_SET_V` (43_commands.md R173): both values are always present, nothing is clamped. -/
def finishSetV : Finish := fun ch r =>
  .setV ch (r.nat .voltage) (milli (r.nat .voltage)) (r.nat .current) (milli (r.nat .current))

/-- `SET_V` (43_commands.md R173). -/
def execSetV (b : Body) (s : State) : Host.Outcome State Fault Refusal := runNamed .setV finishSetV b s

/-- `Finish_SET_I` (43_commands.md R174). -/
def finishSetI : Finish := fun ch r =>
  .setI ch (r.nat .voltage) (milli (r.nat .voltage)) (r.nat .current) (milli (r.nat .current))

/-- `SET_I` (43_commands.md R174). -/
def execSetI (b : Body) (s : State) : Host.Outcome State Fault Refusal := runNamed .setI finishSetI b s

/-- `Finish_SET_ADDR` (43_commands.md R175). -/
def finishSetAddr : Finish := fun ch r => .setAddr ch (finishEntry r)

/-- `SET_ADDR` (43_commands.md R175). -/
def execSetAddr (b : Body) (s : State) : Host.Outcome State Fault Refusal := runNamed .setAddr finishSetAddr b s

/-- `Finish_SET_ALL_ADDR` (43_commands.md R176): entries 0 to 5, whatever count the configured row has (log entry 11). -/
def finishSetAllAddr : Finish := fun ch r => .setAllAddr ch (r.each .entries nChannels finishEntry)

/-- `SET_ALL_ADDR` (43_commands.md R176). -/
def execSetAllAddr (b : Body) (s : State) : Host.Outcome State Fault Refusal :=
  runNamed .setAllAddr finishSetAllAddr b s

/-- `SET_OUTPUT` (43_commands.md R177). -/
def execSetOutput (b : Body) (s : State) : Host.Outcome State Fault Refusal :=
  runNamed .setOutput (finishRaw .setOutput) b s

/-- `START_AUTO_MATCH` (43_commands.md R178). -/
def execStartAutoMatch (b : Body) (s : State) : Host.Outcome State Fault Refusal :=
  runNamed .startAutoMatch (finishRaw .startAutoMatch) b s

/-- `STOP_AUTO_MATCH` (43_commands.md R179). -/
def execStopAutoMatch (b : Body) (s : State) : Host.Outcome State Fault Refusal :=
  runNamed .stopAutoMatch (finishRaw .stopAutoMatch) b s

/-- `RESET_TO_DFU` (43_commands.md R180): decoding this frame does not reset the block. -/
def execResetToDfu (b : Body) (s : State) : Host.Outcome State Fault Refusal :=
  runNamed .resetToDfu (finishRaw .resetToDfu) b s

/-- `RGB` (43_commands.md R181). -/
def execRgb (b : Body) (s : State) : Host.Outcome State Fault Refusal := runNamed .rgb (finishRaw .rgb) b s

/-- `Finish_HEARTBEAT` (43_commands.md R182). -/
def finishHeartbeat : Finish := fun ch _ => .heartbeat ch

/-- `HEARTBEAT` (43_commands.md R182). -/
def execHeartbeat (b : Body) (s : State) : Host.Outcome State Fault Refusal := runNamed .heartbeat finishHeartbeat b s

/-- `OPAQUE` (43_commands.md R183): built by 41_validator_dispatch.md R127, not by the interpreter. -/
def execOpaque (t : Byte) (b : Body) (s : State) : Host.Outcome State Fault Refusal := runUnknown t b s

end Sys2Proof.Machine
end

