-- ==== Sys2Proof/Machine/Reports.lean ====
section
/-!
DEFINITION. The meanings of the six report types (42_reports.md R150 to R155).
-/

namespace Sys2Proof.Machine

/-! ## SYNTHESIZE (42_reports.md R150) -/

/-- The status of a slot: the device-type tag says which of the two status bytes is meant. -/
def finishStatus (s : View) : SlotStatus :=
  if s.nat .deviceType = s.cfg.loadKind then .load (s.nat .loadStatus) else .psu (s.nat .psuStatus)

/-- One slot of `Finish_SYNTHESIZE`. An offline slot is decoded like any other. -/
def finishSlot (s : View) : SynthSlot where
  onlineRaw := s.nat .online
  online := flagOnline (s.nat .online)
  deviceType := s.nat .deviceType
  outputRaw := s.nat .output
  output := flagOutput (s.nat .output)
  lockRaw := s.nat .lock
  lock := flagLock (s.nat .lock)
  status := finishStatus s
  outVoltageRaw := s.nat .outVoltage
  outVoltageV := milli (s.nat .outVoltage)
  outCurrentRaw := s.nat .outCurrent
  outCurrentA := milli (s.nat .outCurrent)
  inVoltageRaw := s.nat .inVoltage
  inVoltageV := milli (s.nat .inVoltage)
  inCurrentRaw := s.nat .inCurrent
  inCurrentA := milli (s.nat .inCurrent)
  setVoltageRaw := s.nat .setVoltage
  setVoltageV := milli (s.nat .setVoltage)
  setCurrentRaw := s.nat .setCurrent
  setCurrentA := milli (s.nat .setCurrent)
  temperatureRaw := s.nat .temperature
  temperatureC := deci (s.nat .temperature)
  color := s.bytes .color
  error := s.nat .error

/-- `Finish_SYNTHESIZE` (42_reports.md R150): slots 0 to 5, whatever count the configured row has (log entry 11). -/
def finishSynthesize : Finish := fun ch r => .synthesize ch (r.each .slots nChannels finishSlot)

/-- `SYNTHESIZE` (42_reports.md R150). -/
def execSynthesize (b : Body) (s : State) : Host.Outcome State Fault Refusal :=
  runNamed .synthesize finishSynthesize b s

/-! ## WAVE (42_reports.md R151) -/

/-- One sample pair of `Finish_WAVE`. -/
def finishItem (it : View) : WaveItem where
  voltageRaw := it.nat .voltage
  voltageV := milli (it.nat .voltage)
  currentRaw := it.nat .current
  currentA := milli (it.nat .current)

/-- One group of `Finish_WAVE`, with every item it has. The timestamp is passed raw; no ordering between groups is checked. -/
def finishGroup (q : View) : WaveGroup where
  timestamp := q.nat .timestamp
  items := q.each .items (q.count .items) finishItem

/-- `Finish_WAVE` (42_reports.md R151): groups 0 to 9, whatever count the configured row has (log entry 11); the item count is that of
the first group. -/
def finishWave : Finish := fun ch r =>
  .wave ch ((r.sub .groups 0).count .items) (r.each .groups nWaveGroups finishGroup)

/-- `WAVE` (42_reports.md R151). -/
def execWave (b : Body) (s : State) : Host.Outcome State Fault Refusal := runNamed .wave finishWave b s

/-! ## ADDR, UPDATE_CH, MACHINE, ERR -/

/-- `Finish_ADDR` (42_reports.md R152): entries 0 to 5, whatever count the configured row has (log entry 11). -/
def finishAddr : Finish := fun ch r => .addr ch (r.each .entries nChannels finishEntry)

/-- `ADDR` (42_reports.md R152): the schema's names, not this rule, put the reversed wire bytes in logical order. -/
def execAddr (b : Body) (s : State) : Host.Outcome State Fault Refusal := runNamed .addr finishAddr b s

/-- `UPDATE_CH` (42_reports.md R153). -/
def execUpdateCh (b : Body) (s : State) : Host.Outcome State Fault Refusal :=
  runNamed .updateCh (finishRaw .updateCh) b s

/-- `Finish_MACHINE` (42_reports.md R154). -/
def finishMachine : Finish := fun ch r =>
  .machine ch (r.nat .machineType) (variantOf (r.nat .machineType)) (hasDisplay (r.nat .machineType))

/-- `MACHINE` (42_reports.md R154). -/
def execMachine (b : Body) (s : State) : Host.Outcome State Fault Refusal := runNamed .machine finishMachine b s

/-- `ERR` (42_reports.md R155): what the DEVICE said; an ordinary record, no failure of the block. -/
def execErr (b : Body) (s : State) : Host.Outcome State Fault Refusal := runNamed .err (finishRaw .err) b s

end Sys2Proof.Machine
end

