-- ==== Sys2Proof/Machine/Dispatch.lean ====
section
/-!
DEFINITION. Dispatch: one arm per constructor of `Instr`, each one direct call of its meaning (41_validator_dispatch.md R125).
-/

namespace Sys2Proof.Machine

def exec (i : Instr) (s : State) : Host.Outcome State Fault Refusal :=
  match i with
  -- reports (42_reports.md)
  | .synthesize b => Sys2Proof.Machine.execSynthesize b s
  | .wave b => Sys2Proof.Machine.execWave b s
  | .addr b => Sys2Proof.Machine.execAddr b s
  | .updateCh b => Sys2Proof.Machine.execUpdateCh b s
  | .machine b => Sys2Proof.Machine.execMachine b s
  -- commands (43_commands.md)
  | .setOutput b => Sys2Proof.Machine.execSetOutput b s
  | .getAddr b => Sys2Proof.Machine.execGetAddr b s
  | .setAddr b => Sys2Proof.Machine.execSetAddr b s
  | .setCh b => Sys2Proof.Machine.execSetCh b s
  | .setV b => Sys2Proof.Machine.execSetV b s
  | .setI b => Sys2Proof.Machine.execSetI b s
  | .setAllAddr b => Sys2Proof.Machine.execSetAllAddr b s
  | .startAutoMatch b => Sys2Proof.Machine.execStartAutoMatch b s
  | .stopAutoMatch b => Sys2Proof.Machine.execStopAutoMatch b s
  | .resetToDfu b => Sys2Proof.Machine.execResetToDfu b s
  | .rgb b => Sys2Proof.Machine.execRgb b s
  | .getMachine b => Sys2Proof.Machine.execGetMachine b s
  | .heartbeat b => Sys2Proof.Machine.execHeartbeat b s
  -- the error notice, a report (42_reports.md R155)
  | .err b => Sys2Proof.Machine.execErr b s
  -- the fallback row (43_commands.md R183)
  | .opaquePacket t b => Sys2Proof.Machine.execOpaque t b s

end Sys2Proof.Machine
end

