-- ==== Sys2Proof/Machine/Assembler.lean ====
section
/-!
DEFINITION. The five operations of the block (40_assembler.md section 1) and the loop that turns buffered bytes into candidate frames and
runs each (R93), and what one step of the machine does: perform the oldest operation the environment has issued, whole.
-/

namespace Sys2Proof.Machine

/-- Hand one frame to the decoder (41_validator_dispatch.md R126): exactly one event. A frame that is no instruction fails with the name the
decoder gives; an instruction runs. Both paths use this (40_assembler.md R99, R102). -/
def runFrame (f : List Byte) (s : State) : Host.Outcome State Fault Refusal :=
  match decode s.cfg f with
  | .error k => takeFailure k s
  | .ok i => exec i s

/-- `Process()`, at most `passes` passes (40_assembler.md R93). -/
def process : Nat → State → Host.Outcome State Fault Refusal
  | 0, s => .next s
  | passes + 1, s =>
    match pass s.cfg s.buf with
    | .stop buf => .next (s.withBuf buf)
    | .retry buf => process passes (s.withBuf buf)
    | .candidate f buf =>
      match runFrame f (s.withBuf buf) with
      | .next t => process passes t
      | .fault x => .fault x
      | .refused x => .refused x

/-- `RESET` (40_assembler.md R90): the configuration is not touched, what was delivered stays delivered. -/
def opReset (s : State) : Host.Outcome State Fault Refusal := .next s.emptyBuf

/-- `CLEAR` (40_assembler.md R101). -/
def opClear (s : State) : Host.Outcome State Fault Refusal := .next s.emptyBuf

/-- `APPEND(chunk)` (40_assembler.md R91): the chunk joins the tail, then `Process` runs to its end. As many passes as there are bytes, and
one, always suffice (R103). -/
def opAppend (chunk : List Byte) (s : State) : Host.Outcome State Fault Refusal :=
  process ((s.appendTail chunk).buf.length + 1) (s.appendTail chunk)

/-- `PUSH(b)` = `APPEND([b])` (40_assembler.md R100). -/
def opPush (b : Byte) (s : State) : Host.Outcome State Fault Refusal := opAppend [b] s

/-- `DECODE(frame)` (40_assembler.md R102): the direct path, `buf` not involved. -/
def opDecode (f : List Byte) (s : State) : Host.Outcome State Fault Refusal := runFrame f s

/-- One operation, whole (00_scope.md R10). -/
def perform (op : Operation) (s : State) : Host.Outcome State Fault Refusal :=
  match op with
  | .reset => opReset s
  | .clear => opClear s
  | .append chunk => opAppend chunk s
  | .push b => opPush b s
  | .decode f => opDecode f s

/-- One step: with no operation pending the block holds its state (60_exceptions.md R235); otherwise it performs the oldest, whole, before the
next begins (20_memory.md R50). An ill-formed configuration is refused (92_eei_decisions.md D19). -/
def advance (s : State) : Host.Outcome State Fault Refusal :=
  if s.cfg.wellFormed then
    match s.inbox with
    | [] => .next s
    | op :: ops => perform op (s.withInbox ops)
  else .refused .illFormedConfiguration

/-- Put a frame where the next step takes its instruction: `DECODE(frame)` becomes the oldest pending operation. -/
def State.placeFrame (s : State) (f : List Byte) : State := s.withInbox (.decode f :: s.inbox)

end Sys2Proof.Machine
end

