-- ==== Sys2Proof/Machine/Step.lean ====
section
/-!
DEFINITION. The step function, and how an instruction given by its table word is placed where the next step runs it.
-/

namespace Sys2Proof.Machine

/-- One step of the machine: one operation of the environment (Machine/Assembler.lean, `advance`). -/
def step (s : State) : Host.Outcome State Fault Refusal := advance s

/-- The state in which the very next step runs the instruction whose bits are `w` (log entry 9): its frame is the operand of a `DECODE` at
the head of the pending operations. -/
def State.withFetchWord (s : State) (nbits w : Nat) : State := s.placeFrame (frameOfTableWord nbits w)

end Sys2Proof.Machine
end

