-- ==== Sys2Proof/Machine/Encoder.lean ====
section
/-!
DEFINITION. The Packet Encoder at the block's boundary (44_encoder_boundary.md R200 to R208): a pure function from a command intent to frame
bytes or a validation error. It is no part of the block (00_scope.md R5); no step calls it. It reads the same schema table as the decoder
(R208).
-/

namespace Sys2Proof.Machine

/-- Why an encoder call fails, before any byte is produced (44_encoder_boundary.md R205). Never an event of the block
(60_exceptions.md R233). -/
inductive EncodeError where
  /-- an address parameter is not exactly 5 bytes -/
  | addressLength
  /-- a bulk-address command does not supply exactly 6 entries -/
  | entryCount
  /-- a voltage or current is negative or does not fit 16 bits (R203, decision D17) -/
  | outOfRange
  /-- the payload is longer than the size byte can say (R201; log entry 16) -/
  | payloadTooLong
  /-- the configured schema row asks for a field the intent does not supply, or supplies in another shape (log entry 16) -/
  | fieldMismatch
  deriving DecidableEq, Repr

/-- A command intent (44_encoder_boundary.md R200): the type and its parameters. Volts and amperes are rationals; the eight commands without
stated parameters take their payload as an argument (R206). `SET_V` is per-channel and always names its channel; the other twelve take
`0xEE` by default and any channel byte a caller names, as R202 does not list which of them are per-channel (log entry 22). -/
inductive Intent where
  | setCh (payload : List Byte) (channel : Byte := unaddressed)
  | setV (volts amperes : Rat) (channel : Byte)
  | setI (volts amperes : Rat) (channel : Byte := unaddressed)
  | setOutput (payload : List Byte) (channel : Byte := unaddressed)
  | setAddr (address : List Byte) (freqOffset : Byte) (channel : Byte := unaddressed)
  | setAllAddr (entries : List (List Byte × Byte)) (channel : Byte := unaddressed)
  | getMachine (payload : List Byte) (channel : Byte := unaddressed)
  | getAddr (payload : List Byte) (channel : Byte := unaddressed)
  | heartbeat (channel : Byte := unaddressed)
  | rgb (payload : List Byte) (channel : Byte := unaddressed)
  | startAutoMatch (payload : List Byte) (channel : Byte := unaddressed)
  | stopAutoMatch (payload : List Byte) (channel : Byte := unaddressed)
  | resetToDfu (payload : List Byte) (channel : Byte := unaddressed)

/-! ## Serializing fields per the schema table (44_encoder_boundary.md R201, R208) -/

/-- One scalar of `width` bytes, little-endian; none where the record has no such number or it does not fit. -/
def packScalar (r : Rec) (name : FieldName) (width : Nat) : Option (List Byte) :=
  match r.nat? name with
  | some v => if v < 256 ^ width then some (leBytes width v) else none
  | none => none

/-- Join two parts of a payload. -/
def joinParts (a b : Option (List Byte)) : Option (List Byte) :=
  match a, b with
  | some a, some b => some (a ++ b)
  | _, _ => none

/-- The payload bytes of a record tree under a schema: the inverse of `readSchema`. A field of the record that no descriptor names is left
out without a failure, and a descriptor whose field the record lacks makes it fail. A `REPEAT_BY_SIZE`, which no command row of the spec has (44_encoder_boundary.md
R208), takes any list whose length is a count of its table, whatever length the frame then has (log entry 16). -/
def serialize (cfg : Config) : Schema → Rec → Option (List Byte)
  | .done, _ => some []
  | .u8 name next, r => joinParts (packScalar r name 1) (serialize cfg next r)
  | .u16 name next, r => joinParts (packScalar r name 2) (serialize cfg next r)
  | .u32 name next, r => joinParts (packScalar r name 4) (serialize cfg next r)
  | .bytes name k next, r =>
    joinParts ((r.bytes? name).bind fun bs => if bs.length = k then some bs else none) (serialize cfg next r)
  | .rep name count sub next, r =>
    joinParts
      ((r.recs? name).bind fun rs => if rs.length = count then (mapAll (fun q => serialize cfg sub q) rs).map List.flatten else none)
      (serialize cfg next r)
  | .cond ref value a b next, r =>
    joinParts
      ((r.nat? ref).bind fun n => if n = value.value cfg then serialize cfg a r else serialize cfg b r)
      (serialize cfg next r)
  | .repBySize name table sub next, r =>
    joinParts
      ((r.recs? name).bind fun rs =>
        if table.any (fun row => row.2 == rs.length) then (mapAll (fun q => serialize cfg sub q) rs).map List.flatten else none)
      (serialize cfg next r)
  | .rest name next, r => joinParts (r.bytes? name) (serialize cfg next r)

/-- The frame of a named packet type with the given raw fields (44_encoder_boundary.md R201). -/
def encodeFields (cfg : Config) (m : PacketType) (channel : Byte) (r : Rec) : Except EncodeError (List Byte) :=
  match serialize cfg (cfg.schema.row m) r with
  | none => .error .fieldMismatch
  | some payload =>
    if payload.length ≤ maxPayload then .ok (makeFrame (cfg.typeCode.code m) channel payload) else .error .payloadTooLong

/-! ## Parameters -/

/-- A non-negative rational to its nearest milli-unit, ties away from zero: `floor(1000 x + 1/2)`; a negative value or one above 65535
milli-units is a validation failure (44_encoder_boundary.md R203, decision D17). -/
def milliRaw (x : Rat) : Except EncodeError Nat :=
  if x.num < 0 then .error .outOfRange
  else
    let raw := (2000 * x.num.toNat + x.den) / (2 * x.den)
    if raw ≤ 65535 then .ok raw else .error .outOfRange

/-- The fields of an address entry by name (44_encoder_boundary.md R204); the address must be exactly 5 bytes (R205). -/
def entryFields (address : List Byte) (freqOffset : Byte) : Except EncodeError Rec :=
  match address with
  | [a0, a1, a2, a3, a4] =>
    .ok [(.addr0, .nat a0.toNat), (.addr1, .nat a1.toNat), (.addr2, .nat a2.toNat), (.addr3, .nat a3.toNat),
         (.addr4, .nat a4.toNat), (.freqOffset, .nat freqOffset.toNat)]
  | _ => .error .addressLength

/-- The fields of a list of address entries, in order. -/
def entriesFields : List (List Byte × Byte) → Except EncodeError (List Rec)
  | [] => .ok []
  | (address, offset) :: es => do
    let e ← entryFields address offset
    let rest ← entriesFields es
    .ok (e :: rest)

/-- The fields of the voltage and current commands. -/
def voltageCurrentFields (volts amperes : Rat) : Except EncodeError Rec := do
  let v ← milliRaw volts
  let a ← milliRaw amperes
  .ok [(.voltage, .nat v), (.current, .nat a)]

/-- The encoder (44_encoder_boundary.md R200 to R206). Of a bulk call with both a wrong entry count and a wrong address length, the count is
reported. A configuration that fails 70_reset_and_hazards.md R243 (1) is not refused here (log entry 16). -/
def encodeIntent (cfg : Config) : Intent → Except EncodeError (List Byte)
  | .setCh payload ch => encodeFields cfg .setCh ch [(.payload, .bytes payload)]
  | .setV volts amperes ch => do encodeFields cfg .setV ch (← voltageCurrentFields volts amperes)
  | .setI volts amperes ch => do encodeFields cfg .setI ch (← voltageCurrentFields volts amperes)
  | .setOutput payload ch => encodeFields cfg .setOutput ch [(.payload, .bytes payload)]
  | .setAddr address offset ch => do encodeFields cfg .setAddr ch (← entryFields address offset)
  | .setAllAddr entries ch =>
    if entries.length = nChannels then do encodeFields cfg .setAllAddr ch [(.entries, .recs (← entriesFields entries))]
    else .error .entryCount
  | .getMachine payload ch => encodeFields cfg .getMachine ch [(.payload, .bytes payload)]
  | .getAddr payload ch => encodeFields cfg .getAddr ch [(.payload, .bytes payload)]
  | .heartbeat ch => encodeFields cfg .heartbeat ch []
  | .rgb payload ch => encodeFields cfg .rgb ch [(.payload, .bytes payload)]
  | .startAutoMatch payload ch => encodeFields cfg .startAutoMatch ch [(.payload, .bytes payload)]
  | .stopAutoMatch payload ch => encodeFields cfg .stopAutoMatch ch [(.payload, .bytes payload)]
  | .resetToDfu payload ch => encodeFields cfg .resetToDfu ch [(.payload, .bytes payload)]

end Sys2Proof.Machine
end

