-- ==== Sys2Proof/Safety.lean ====
section
/-!
DEFINITION. The terms claims are stated in: the shapes a buffer may have between operations (40_assembler.md R103), the events a byte sequence
has to give (a transcription of 41_validator_dispatch.md R126 over frame indices, apart from the machine's own decoder), the frames a stream
holds (40_assembler.md R93 without the decoder), and the payload maps of 30_encoding.md R70 and R71 by offset. No step uses any of them.
-/

namespace Sys2Proof.Machine

/-! ## Buffers -/

/-- There is no index at which two magic bytes stand. -/
def NoMagic (buf : List Byte) : Prop := ∀ k, ¬ (buf[k]? = some magicByte ∧ buf[k + 1]? = some magicByte)

/-- The buffer begins with the magic. -/
def StartsWithMagic (buf : List Byte) : Prop := buf[0]? = some magicByte ∧ buf[1]? = some magicByte

/-- The buffer begins with a plausible header whose type byte is `t` and size byte is `size` (00_scope.md R12). -/
def PlausibleHeader (cfg : Config) (buf : List Byte) (t size : Byte) : Prop :=
  StartsWithMagic buf ∧ buf[2]? = some t ∧ buf[3]? = some size ∧
    cfg.typeMin.toNat ≤ t.toNat ∧ t.toNat ≤ cfg.typeMax.toNat ∧ 6 ≤ size.toNat ∧ size.toNat ≤ 255

/-- A buffer that begins with a plausible header and is as long as the header says: one candidate frame (00_scope.md R11). -/
def CandidateFrame (cfg : Config) (f : List Byte) : Prop :=
  ∃ t size, PlausibleHeader cfg f t size ∧ f.length = size.toNat

/-- No magic sequence that begins in the noise forms a plausible header with what follows it (40_assembler.md R108). -/
def NoFalseHeader (cfg : Config) (noise f : List Byte) : Prop :=
  ∀ k, k < noise.length → ∀ t size, ¬ PlausibleHeader cfg ((noise ++ f).drop k) t size

/-- The three quiescent shapes Q0, Q1, Q2 (40_assembler.md R103). -/
inductive Quiescent (cfg : Config) (buf : List Byte) : Prop where
  /-- Q0: no magic sequence, within the bound -/
  | noMagic (h : NoMagic buf) (bound : buf.length ≤ cfg.discardBound)
  /-- Q1: the magic and at most one byte more -/
  | shortHeader (h : StartsWithMagic buf) (len : buf.length = 2 ∨ buf.length = 3)
  /-- Q2: a plausible header and fewer bytes than it says -/
  | partialFrame (t size : Byte) (h : PlausibleHeader cfg buf t size) (len : 4 ≤ buf.length) (short : buf.length < size.toNat)

/-- The invariant of a run: a well-formed configuration and a quiescent buffer. -/
structure Inv (s : State) : Prop where
  config : s.cfg.wellFormed = true
  quiescent : Quiescent s.cfg s.buf

/-! ## Runs -/

/-- So many steps, one operation each, stopping at the first refusal (00_scope.md R10: a run is a finite sequence of operations). -/
def runSteps : Nat → State → Host.Outcome State Fault Refusal
  | 0, s => .next s
  | n + 1, s =>
    match step s with
    | .next t => runSteps n t
    | .fault x => .fault x
    | .refused x => .refused x

/-! ## Frames in a stream (40_assembler.md R93 without the decoder) -/

/-- The candidate frames of a buffer and what is left of it, in at most so many passes. -/
def assemble (cfg : Config) : Nat → List Byte → List (List Byte) × List Byte
  | 0, buf => ([], buf)
  | passes + 1, buf =>
    match pass cfg buf with
    | .stop b => ([], b)
    | .retry b => assemble cfg passes b
    | .candidate f b => (f :: (assemble cfg passes b).1, (assemble cfg passes b).2)

/-- The candidate frames of a buffer, in order. -/
def framesOf (cfg : Config) (buf : List Byte) : List (List Byte) := (assemble cfg (buf.length + 1) buf).1

/-- What `Process` leaves of a buffer. -/
def leftoverOf (cfg : Config) (buf : List Byte) : List Byte := (assemble cfg (buf.length + 1) buf).2

/-- Does the discard of step 1 fire within so many passes? -/
def discards (cfg : Config) : Nat → List Byte → Bool
  | 0, _ => false
  | passes + 1, buf =>
    match pass cfg buf with
    | .stop _ => (findMagic buf).isNone && decide (cfg.discardBound < buf.length)
    | .retry b => discards cfg passes b
    | .candidate _ b => discards cfg passes b

/-- Does the discard of step 1 fire when `Process` runs on this buffer (40_assembler.md R94, R106)? -/
def discardFires (cfg : Config) (buf : List Byte) : Bool := discards cfg (buf.length + 1) buf

/-- A run of the input stream with the fate of its bytes (40_assembler.md R105). -/
inductive Piece where
  /-- garbage, the first byte of a false header, or a discarded buffer -/
  | dropped (bytes : List Byte)
  /-- one candidate frame -/
  | frame (bytes : List Byte)
  deriving DecidableEq, Repr

/-- The bytes of a piece. -/
def Piece.bytes : Piece → List Byte
  | .dropped b => b
  | .frame b => b

/-- The candidate frame a piece is. -/
def Piece.frame? : Piece → Option (List Byte)
  | .dropped _ => none
  | .frame b => some b

/-! ## Events -/

/-- `Finish_m` by packet type (42_reports.md, 43_commands.md). -/
def finishOf : PacketType → Finish
  | .synthesize => finishSynthesize
  | .wave => finishWave
  | .addr => finishAddr
  | .updateCh => finishRaw .updateCh
  | .machine => finishMachine
  | .setOutput => finishRaw .setOutput
  | .getAddr => finishRaw .getAddr
  | .setAddr => finishSetAddr
  | .setCh => finishRaw .setCh
  | .setV => finishSetV
  | .setI => finishSetI
  | .setAllAddr => finishSetAllAddr
  | .startAutoMatch => finishRaw .startAutoMatch
  | .stopAutoMatch => finishRaw .stopAutoMatch
  | .resetToDfu => finishRaw .resetToDfu
  | .rgb => finishRaw .rgb
  | .getMachine => finishRaw .getMachine
  | .heartbeat => finishHeartbeat
  | .err => finishRaw .err

/-- The byte at a frame index, 0 past the end. -/
def byteAt (f : List Byte) (k : Nat) : Byte := f[k]?.getD 0

/-- `Decode(f)` line by line from 41_validator_dispatch.md R126, over frame indices. -/
def specDecode (cfg : Config) (f : List Byte) : Event :=
  if f.length < 2 ∨ byteAt f 0 ≠ magicByte ∨ byteAt f 1 ≠ magicByte then .fail .magic
  else if f.length < 6 ∨ (byteAt f 3).toNat ≠ f.length then .fail .size
  else if xorReduce (f.drop 6) ≠ byteAt f 5 then .fail .checksum
  else
    match cfg.typeCode.typeOf? (byteAt f 2) with
    | none => .record (.opaquePacket (byteAt f 2) (byteAt f 4) (f.drop 6))
    | some m =>
      match interpret cfg (cfg.schema.row m) f with
      | .error k => .fail k
      | .ok r => .record (finishOf m (byteAt f 4) ⟨cfg, f, [], r⟩)

/-- The frame sizes the default schema accepts for a named type under `reject` (30_encoding.md R73). -/
def legalSize : PacketType → Nat → Bool
  | .synthesize, n => n == 144
  | .wave, n => n == 126 || n == 206
  | .addr, n => n == 42
  | .machine, n => n == 7
  | .setV, n | .setI, n => n == 10
  | .setAddr, n => n == 12
  | .setAllAddr, n => n == 42
  | .heartbeat, n => n == 6
  | .updateCh, n | .setOutput, n | .getAddr, n | .setCh, n | .startAutoMatch, n | .stopAutoMatch, n
  | .resetToDfu, n | .rgb, n | .getMachine, n | .err, n => decide (6 ≤ n ∧ n ≤ 255)

/-! ## Payload maps by offset (30_encoding.md R70, R71; offsets from the payload's first byte, frame index 6) -/

/-- The byte at a payload offset, as a number. -/
def u8At (p : List Byte) (k : Nat) : Nat := (byteAt p k).toNat
/-- The 16-bit little-endian number at a payload offset. -/
def u16At (p : List Byte) (k : Nat) : Nat := u8At p k + 256 * u8At p (k + 1)
/-- The 32-bit little-endian number at a payload offset. -/
def u32At (p : List Byte) (k : Nat) : Nat :=
  u8At p k + 256 * u8At p (k + 1) + 65536 * u8At p (k + 2) + 16777216 * u8At p (k + 3)

/-- Slot `k` of a synthesize payload, by the slot byte map of 30_encoding.md R70 and the record rule of 42_reports.md R150. -/
def slotAt (loadKind : Nat) (p : List Byte) (k : Nat) : SynthSlot :=
  let o := 23 * k
  { onlineRaw := u8At p o, online := u8At p o != 0,
    deviceType := u8At p (o + 1),
    outputRaw := u8At p (o + 2), output := u8At p (o + 2) != 0,
    lockRaw := u8At p (o + 3), lock := u8At p (o + 3) == 1,
    status := if u8At p (o + 1) = loadKind then .load (u8At p (o + 4)) else .psu (u8At p (o + 4)),
    outVoltageRaw := u16At p (o + 5), outVoltageV := milli (u16At p (o + 5)),
    outCurrentRaw := u16At p (o + 7), outCurrentA := milli (u16At p (o + 7)),
    inVoltageRaw := u16At p (o + 9), inVoltageV := milli (u16At p (o + 9)),
    inCurrentRaw := u16At p (o + 11), inCurrentA := milli (u16At p (o + 11)),
    setVoltageRaw := u16At p (o + 13), setVoltageV := milli (u16At p (o + 13)),
    setCurrentRaw := u16At p (o + 15), setCurrentA := milli (u16At p (o + 15)),
    temperatureRaw := u16At p (o + 17), temperatureC := deci (u16At p (o + 17)),
    color := [byteAt p (o + 19), byteAt p (o + 20), byteAt p (o + 21)],
    error := u8At p (o + 22) }

/-- Item `j` of group `g` of a wave payload with `n` items a group. -/
def waveItemAt (p : List Byte) (n g j : Nat) : WaveItem :=
  let o := g * (4 + 4 * n) + 4 + 4 * j
  { voltageRaw := u16At p o, voltageV := milli (u16At p o),
    currentRaw := u16At p (o + 2), currentA := milli (u16At p (o + 2)) }

/-- Group `g` of a wave payload with `n` items a group. -/
def waveGroupAt (p : List Byte) (n g : Nat) : WaveGroup :=
  { timestamp := u32At p (g * (4 + 4 * n)), items := (List.range n).map (waveItemAt p n g) }

/-- The address entry whose logical address is `a` and offset byte is `offset` (41_validator_dispatch.md R139, R140). -/
def entryOf (a : List Nat) (offset : Nat) : AddrEntry :=
  { address := a, freqOffset := offset, freqMhz := 2400 + offset, empty := a == [0, 0, 0, 0, 0] }

/-- The entry at payload offset `o` in the order of the two commands: `addr0` first. -/
def naturalEntryAt (p : List Byte) (o : Nat) : AddrEntry :=
  entryOf [u8At p o, u8At p (o + 1), u8At p (o + 2), u8At p (o + 3), u8At p (o + 4)] (u8At p (o + 5))

/-- The entry at payload offset `o` in the order of the report: `addr4` first. -/
def reversedEntryAt (p : List Byte) (o : Nat) : AddrEntry :=
  entryOf [u8At p (o + 4), u8At p (o + 3), u8At p (o + 2), u8At p (o + 1), u8At p o] (u8At p (o + 5))

/-! ## Records the encoder aims at (44_encoder_boundary.md R207) -/

/-- The entry an address parameter stands for. -/
def intendedEntry (e : List Byte × Byte) : AddrEntry := entryOf (e.1.map BitVec.toNat) e.2.toNat

/-- A rational the encoder can pack: not negative, and at most 65535 milli-units after rounding (44_encoder_boundary.md R203). -/
def packable (x : Rat) : Prop := 0 ≤ x ∧ x < 131071 / 2000

/-- The parameters of an intent are in the valid ranges (44_encoder_boundary.md R201, R203, R205). -/
def Intent.valid : Intent → Prop
  | .setV x y _ | .setI x y _ => packable x ∧ packable y
  | .setAddr a _ _ => a.length = addrLen
  | .setAllAddr es _ => es.length = nChannels ∧ ∀ e, e ∈ es → e.1.length = addrLen
  | .heartbeat _ => True
  | .setCh p _ | .setOutput p _ | .getMachine p _ | .getAddr p _ | .rgb p _ | .startAutoMatch p _ | .stopAutoMatch p _
  | .resetToDfu p _ => p.length ≤ maxPayload

/-- The record a command intent stands for, volts and amperes at their nearest milli-unit; none where a parameter is invalid. -/
def Intent.record? : Intent → Option Record
  | .setCh p ch => some (.setCh ch p)
  | .setV x y ch =>
    match milliRaw x, milliRaw y with
    | .ok v, .ok a => some (.setV ch v (milli v) a (milli a))
    | _, _ => none
  | .setI x y ch =>
    match milliRaw x, milliRaw y with
    | .ok v, .ok a => some (.setI ch v (milli v) a (milli a))
    | _, _ => none
  | .setOutput p ch => some (.setOutput ch p)
  | .setAddr a offset ch => some (.setAddr ch (intendedEntry (a, offset)))
  | .setAllAddr es ch => some (.setAllAddr ch (es.map intendedEntry))
  | .getMachine p ch => some (.getMachine ch p)
  | .getAddr p ch => some (.getAddr ch p)
  | .heartbeat ch => some (.heartbeat ch)
  | .rgb p ch => some (.rgb ch p)
  | .startAutoMatch p ch => some (.startAutoMatch ch p)
  | .stopAutoMatch p ch => some (.stopAutoMatch ch p)
  | .resetToDfu p ch => some (.resetToDfu ch p)

end Sys2Proof.Machine
end

