-- ==== Sys2Proof/Certificates/Slice0/Obligations.lean ====
section
/-!
DEFINITION. The statements about the model, from the numbered rules of spec/. Each is a closed proposition; none is proved here.
Throughout, `s.inbox = .op … :: rest` says which operation the next step performs, and a conclusion `step s = .next (…)` names every
field of the next state. Bodies are "well formed" when their size and checksum bytes are right (30_encoding.md R61).
-/

open Sys2Proof Sys2Proof.Machine

/-! ## Encoding -/

/-- Decoding an encoded instruction gives it back, whatever its size and checksum bytes say, for every instruction whose constructor is
the one its type byte selects (30_encoding.md R60, R75). -/
def Obligations.DecodeAfterEncodeIsIdentity : Prop :=
  ∀ (cfg : Config) (i : Instr), cfg.typeCode.injective = true → i.typeOk cfg = true → decode cfg (encode cfg i) = .ok i

/-- A byte sequence that decodes is the encoding of what it decodes to: no byte of a frame is dropped (30_encoding.md R60). -/
def Obligations.EncodeAfterDecodeIsIdentity : Prop :=
  ∀ (cfg : Config) (f : List Byte) (i : Instr), decode cfg f = .ok i → encode cfg i = f ∧ i.typeOk cfg = true

/-- Frames written out in the spec decode to the instructions they stand for, and one too short for a header to its failure
(95_test_vectors.md S1, S2, V-M1, V-D1, V-K6). That `0x15` is `MACHINE` is decision D2 (log entry 5, PRESUMED); that the four bytes
`5A 5A 22 04` fail with `FAIL_SIZE` is decision D14 (log entry 13). -/
def Obligations.WrittenOutFramesDecode : Prop :=
  decode Config.default [0x5A, 0x5A, 0x1A, 0x0A, 0x00, 0x1D, 0xE4, 0x0C, 0xF4, 0x01]
      = .ok (.setV ⟨0x0A, 0x00, 0x1D, [0xE4, 0x0C, 0xF4, 0x01]⟩) ∧
  decode Config.default [0x5A, 0x5A, 0x22, 0x06, 0xEE, 0x00] = .ok (.heartbeat ⟨0x06, 0xEE, 0x00, []⟩) ∧
  decode Config.default [0x5A, 0x5A, 0x15, 0x07, 0xEE, 0x10, 0x10] = .ok (.machine ⟨0x07, 0xEE, 0x10, [0x10]⟩) ∧
  decode Config.default [0x5A, 0x5A, 0x77, 0x09, 0xEE, 0x00, 0x01, 0x02, 0x03]
      = .ok (.opaquePacket 0x77 ⟨0x09, 0xEE, 0x00, [0x01, 0x02, 0x03]⟩) ∧
  decode Config.default [0x5A, 0x5A, 0x22, 0x04] = .error .size

/-- A frame built from a type code, a channel and a payload that fits is as long as its size byte says and decodes to the well-formed
instruction of that type (44_encoder_boundary.md R201). -/
def Obligations.BuiltFramesAreWellFormed : Prop :=
  ∀ (cfg : Config) (m : PacketType) (channel : Byte) (payload : List Byte),
    cfg.typeCode.injective = true → payload.length ≤ 249 →
    decode cfg (makeFrame (cfg.typeCode.code m) channel payload) = .ok (Instr.ofType m (Body.ofPayload channel payload)) ∧
    (Instr.ofType m (Body.ofPayload channel payload)).wellFormed cfg = true ∧
    (makeFrame (cfg.typeCode.code m) channel payload).length = 6 + payload.length

/-- The type byte alone selects the instruction (41_validator_dispatch.md R125). That the instruction carries every other byte of the frame raw,
each from the index 20_memory.md R48 gives it, is the model's choice (log entry 9). -/
def Obligations.TypeByteSelectsTheInstruction : Prop :=
  ∀ (cfg : Config) (f : List Byte) (i : Instr), decode cfg f = .ok i →
    i.packetType? = cfg.typeCode.typeOf? (byteAt f 2) ∧ i.typeByte cfg = byteAt f 2 ∧
    i.body = ⟨byteAt f 3, byteAt f 4, byteAt f 5, f.drop 6⟩

/-! ## Validation -/

/-- A frame that is too short for the magic or does not begin with it fails with `FAIL_MAGIC` (41_validator_dispatch.md R120; that a
too-short frame fails this check is the spec's decision D14, log entry 13). -/
def Obligations.FramesWithoutMagicFail : Prop :=
  ∀ (s : State) (f : List Byte) (rest : List Operation), s.cfg.wellFormed = true → s.inbox = .decode f :: rest →
    ¬ StartsWithMagic f → step s = .next ((s.withInbox rest).emit (.fail .magic))

/-- A frame that begins with the magic and is shorter than a header, or whose size byte is not its length, fails with `FAIL_SIZE`, whatever
its checksum (41_validator_dispatch.md R121, 60_exceptions.md R226; the rule for short frames is decision D14, log entry 13). -/
def Obligations.FramesOfWrongSizeFail : Prop :=
  ∀ (s : State) (f : List Byte) (rest : List Operation), s.cfg.wellFormed = true → s.inbox = .decode f :: rest →
    StartsWithMagic f → (f.length < 6 ∨ (byteAt f 3).toNat ≠ f.length) →
    step s = .next ((s.withInbox rest).emit (.fail .size))

/-- A frame of good magic and size fails with `FAIL_CHECKSUM` exactly when the XOR of its payload differs from its checksum byte
(41_validator_dispatch.md R122). -/
def Obligations.ChecksumDecidesChecksumFailure : Prop :=
  ∀ (s : State) (f : List Byte) (rest : List Operation), s.cfg.wellFormed = true → s.inbox = .decode f :: rest →
    StartsWithMagic f → 6 ≤ f.length → (byteAt f 3).toNat = f.length →
    (xorReduce (f.drop 6) ≠ byteAt f 5 → step s = .next ((s.withInbox rest).emit (.fail .checksum))) ∧
    (xorReduce (f.drop 6) = byteAt f 5 → ∀ t, step s = .next t → t.events ≠ s.events ++ [.fail .checksum])

/-- `DECODE` gives exactly the one event of the pseudocode of 41_validator_dispatch.md R126 and changes nothing else, for every frame and every
well-formed configuration (40_assembler.md R102; what a record holds where the configured row lacks a field of its rule is free, log entry 11). -/
def Obligations.DirectDecodeFollowsThePseudocode : Prop :=
  ∀ (s : State) (f : List Byte) (rest : List Operation), s.cfg.wellFormed = true → s.inbox = .decode f :: rest →
    step s = .next ((s.withInbox rest).emit (specDecode s.cfg f))

/-- Flipping any one bit of the payload or of the checksum byte of a well-formed frame makes it fail with `FAIL_CHECKSUM`
(41_validator_dispatch.md R124 (d)). -/
def Obligations.SingleBitFlipsFailTheChecksum : Prop :=
  ∀ (s : State) (f : List Byte) (i : Instr) (k j : Nat), decode s.cfg f = .ok i → i.body.wellFormed = true →
    5 ≤ k → k < f.length → j < 8 →
    runFrame (f.set k (byteAt f k ^^^ ((1 : Byte) <<< j))) s = .next (s.emit (.fail .checksum))

/-- Flipping the same bit position in two payload bytes of a well-formed frame is not detected: the frame stays well formed
(41_validator_dispatch.md R124 (e)). -/
def Obligations.PairedFlipsStayUndetected : Prop :=
  ∀ (cfg : Config) (f : List Byte) (i : Instr) (k l j : Nat), decode cfg f = .ok i → i.body.wellFormed = true →
    6 ≤ k → k < l → l < f.length → j < 8 →
    ∃ i', decode cfg ((f.set k (byteAt f k ^^^ ((1 : Byte) <<< j))).set l (byteAt f l ^^^ ((1 : Byte) <<< j))) = .ok i' ∧
      i'.packetType? = i.packetType? ∧ i'.body.wellFormed = true

/-! ## A step runs the decoded instruction -/

/-- When the frame of the oldest pending operation `DECODE` decodes to an instruction, the step is that instruction's meaning on the state
with the operation taken off the queue; when it does not, the step takes the failure the decoder names (40_assembler.md R102; the queue
is the model's, log entry 2). -/
def Obligations.DirectStepRunsTheDecodedInstruction : Prop :=
  ∀ (s : State) (f : List Byte) (rest : List Operation), s.cfg.wellFormed = true → s.inbox = .decode f :: rest →
    (∀ i, decode s.cfg f = .ok i → step s = exec i (s.withInbox rest)) ∧
    (∀ k, decode s.cfg f = .error k → step s = .next ((s.withInbox rest).emit (.fail k)))

/-- When the pending bytes and an appended chunk together are one candidate frame, the step is the meaning of the instruction it decodes to, on
the state with the operation taken off the queue and the frame's bytes out of the buffer (40_assembler.md R99). -/
def Obligations.StreamStepRunsTheDecodedInstruction : Prop :=
  ∀ (s : State) (chunk : List Byte) (rest : List Operation), s.cfg.wellFormed = true → s.inbox = .append chunk :: rest →
    CandidateFrame s.cfg (s.buf ++ chunk) →
    ∃ i, decode s.cfg (s.buf ++ chunk) = .ok i ∧ step s = exec i ((s.withInbox rest).withBuf [])

/-! ## Records -/

/-- `SYNTHESIZE`: six slots, each field at the offset the slot byte map gives it (42_reports.md R150; the layout is decision D4, `LOAD_KIND`
decision D6, log entries 5 and 6). -/
def Obligations.SynthesizeDecodesSixSlots : Prop :=
  ∀ (s : State) (b : Body), s.cfg.schema.synthesize = Schema.synthesize → b.wellFormed = true → b.payload.length = 138 →
    exec (.synthesize b) s =
      .next (s.emit (.record (.synthesize b.channel ((List.range 6).map (slotAt s.cfg.loadKind b.payload)))))

/-- `WAVE`: size 126 gives ten groups of two items, size 206 ten groups of four (42_reports.md R151; the order inside a group is decision
D5, log entry 7). -/
def Obligations.WaveDecodesTenGroups : Prop :=
  ∀ (s : State) (b : Body) (n : Nat), s.cfg.schema.wave = Schema.wave → b.wellFormed = true →
    (b.size.toNat = 126 ∧ n = 2 ∨ b.size.toNat = 206 ∧ n = 4) →
    exec (.wave b) s = .next (s.emit (.record (.wave b.channel n ((List.range 10).map (waveGroupAt b.payload n)))))

/-- `WAVE`: any other size is `FAIL_LAYOUT`, under either policy for excess bytes (42_reports.md R151, 41_validator_dispatch.md R132). -/
def Obligations.WaveOfOtherSizeFails : Prop :=
  ∀ (s : State) (b : Body), s.cfg.schema.wave = Schema.wave → b.wellFormed = true → b.size.toNat ≠ 126 → b.size.toNat ≠ 206 →
    exec (.wave b) s = .next (s.emit (.fail .layout))

/-- `ADDR`: six entries whose wire bytes stand in reversed order (42_reports.md R152, 20_memory.md R41; the entry count and the place of the
offset are decision D7, log entry 7). -/
def Obligations.AddrReportReversesAddressBytes : Prop :=
  ∀ (s : State) (b : Body), s.cfg.schema.addr = Schema.addr → b.wellFormed = true → b.payload.length = 36 →
    exec (.addr b) s =
      .next (s.emit (.record (.addr b.channel ((List.range 6).map fun k => reversedEntryAt b.payload (6 * k)))))

/-- `SET_ADDR` and `SET_ALL_ADDR`: one entry, and six, whose wire bytes stand in natural order (43_commands.md R175, R176, 20_memory.md R41; the
place of the offset is decision D7, log entry 7). -/
def Obligations.AddressCommandsKeepByteOrder : Prop :=
  (∀ (s : State) (b : Body), s.cfg.schema.setAddr = Schema.entryNatural → b.wellFormed = true → b.payload.length = 6 →
    exec (.setAddr b) s = .next (s.emit (.record (.setAddr b.channel (naturalEntryAt b.payload 0))))) ∧
  (∀ (s : State) (b : Body), s.cfg.schema.setAllAddr = Schema.setAllAddr → b.wellFormed = true → b.payload.length = 36 →
    exec (.setAllAddr b) s =
      .next (s.emit (.record (.setAllAddr b.channel ((List.range 6).map fun k => naturalEntryAt b.payload (6 * k))))))

/-- `SET_V` and `SET_I`: two 16-bit little-endian milli-values, voltage first, raw and divided by 1000, nothing clamped (43_commands.md R173,
R174; that `SET_I` has the layout of `SET_V` is decision D7, log entry 7). -/
def Obligations.VoltageAndCurrentCommandsDecode : Prop :=
  (∀ (s : State) (b : Body), s.cfg.schema.setV = Schema.voltageCurrent → b.wellFormed = true → b.payload.length = 4 →
    exec (.setV b) s = .next (s.emit (.record (.setV b.channel (u16At b.payload 0) (milli (u16At b.payload 0))
      (u16At b.payload 2) (milli (u16At b.payload 2)))))) ∧
  (∀ (s : State) (b : Body), s.cfg.schema.setI = Schema.voltageCurrent → b.wellFormed = true → b.payload.length = 4 →
    exec (.setI b) s = .next (s.emit (.record (.setI b.channel (u16At b.payload 0) (milli (u16At b.payload 0))
      (u16At b.payload 2) (milli (u16At b.payload 2))))))

/-- `MACHINE`: `0x10` is the variant with the display, any other value the plain one (42_reports.md R154, 41_validator_dispatch.md R141; the
one-byte payload is decision D7, log entry 7). -/
def Obligations.MachineDecodesVariant : Prop :=
  ∀ (s : State) (b : Body) (v : Byte), s.cfg.schema.machine = Schema.machine → b.wellFormed = true → b.payload = [v] →
    exec (.machine b) s = .next (s.emit (.record
      (if v = 0x10 then .machine b.channel 0x10 .withDisplay true else .machine b.channel v.toNat .plain false)))

/-- `HEARTBEAT`: the channel byte and nothing else, for an empty payload (43_commands.md R182). -/
def Obligations.HeartbeatDecodes : Prop :=
  ∀ (s : State) (b : Body), s.cfg.schema.heartbeat = .done → b.wellFormed = true → b.payload = [] →
    exec (.heartbeat b) s = .next (s.emit (.record (.heartbeat b.channel)))

/-- The ten types of 30_encoding.md R72 pass a payload of any length through raw, under their own names (42_reports.md R153, R155, 43_commands.md
R170 to R172, R177 to R181; the schema `[ REST payload ]` is decision D8, log entry 7). -/
def Obligations.RawPayloadTypesPassThrough : Prop :=
  ∀ (s : State) (b : Body), b.wellFormed = true →
    (s.cfg.schema.updateCh = Schema.restPayload →
      exec (.updateCh b) s = .next (s.emit (.record (.updateCh b.channel b.payload)))) ∧
    (s.cfg.schema.setOutput = Schema.restPayload →
      exec (.setOutput b) s = .next (s.emit (.record (.setOutput b.channel b.payload)))) ∧
    (s.cfg.schema.getAddr = Schema.restPayload →
      exec (.getAddr b) s = .next (s.emit (.record (.getAddr b.channel b.payload)))) ∧
    (s.cfg.schema.setCh = Schema.restPayload →
      exec (.setCh b) s = .next (s.emit (.record (.setCh b.channel b.payload)))) ∧
    (s.cfg.schema.startAutoMatch = Schema.restPayload →
      exec (.startAutoMatch b) s = .next (s.emit (.record (.startAutoMatch b.channel b.payload)))) ∧
    (s.cfg.schema.stopAutoMatch = Schema.restPayload →
      exec (.stopAutoMatch b) s = .next (s.emit (.record (.stopAutoMatch b.channel b.payload)))) ∧
    (s.cfg.schema.resetToDfu = Schema.restPayload →
      exec (.resetToDfu b) s = .next (s.emit (.record (.resetToDfu b.channel b.payload)))) ∧
    (s.cfg.schema.rgb = Schema.restPayload →
      exec (.rgb b) s = .next (s.emit (.record (.rgb b.channel b.payload)))) ∧
    (s.cfg.schema.getMachine = Schema.restPayload →
      exec (.getMachine b) s = .next (s.emit (.record (.getMachine b.channel b.payload)))) ∧
    (s.cfg.schema.err = Schema.restPayload →
      exec (.err b) s = .next (s.emit (.record (.err b.channel b.payload))))

/-- An unknown type of valid magic, size and checksum gives the opaque record of its type, channel and payload bytes, unchanged; no layout check
applies (41_validator_dispatch.md R127). -/
def Obligations.UnknownTypesPassThrough : Prop :=
  (∀ (s : State) (t : Byte) (b : Body), b.wellFormed = true →
    exec (.opaquePacket t b) s = .next (s.emit (.record (.opaquePacket t b.channel b.payload)))) ∧
  (∀ (s : State) (f : List Byte) (rest : List Operation), s.cfg.wellFormed = true → s.inbox = .decode f :: rest →
    StartsWithMagic f → 6 ≤ f.length → (byteAt f 3).toNat = f.length → xorReduce (f.drop 6) = byteAt f 5 →
    s.cfg.typeCode.typeOf? (byteAt f 2) = none →
    step s = .next ((s.withInbox rest).emit (.record (.opaquePacket (byteAt f 2) (byteAt f 4) (f.drop 6)))))

/-- Under the default schema table and `reject`, a frame that passes validation gives a record exactly when its size is legal for its type, and
`FAIL_LAYOUT` otherwise (30_encoding.md R73, 41_validator_dispatch.md R129, R130; decisions D4, D5, D7, D8, D9, log entries 6, 7, 8). -/
def Obligations.LegalSizesDecideTheLayout : Prop :=
  ∀ (s : State) (m : PacketType) (b : Body), s.cfg.schema = SchemaTable.default → s.cfg.excess = .reject → b.wellFormed = true →
    (legalSize m b.size.toNat = true → ∃ r, exec (Instr.ofType m b) s = .next (s.emit (.record r))) ∧
    (legalSize m b.size.toNat = false → exec (Instr.ofType m b) s = .next (s.emit (.fail .layout)))

/-- Under `ignore`, bytes behind the schema are no part of the record, and a payload too short for it still fails, for each of the eight types
whose row has a fixed length (41_validator_dispatch.md R129, R130; decision D9, log entry 8; the rows are decisions D4 and D7, log entries 6
and 7). The ten raw types have no bytes left over, and `WAVE` accepts no other size under either policy. -/
def Obligations.IgnorePolicyLeavesExcessOut : Prop :=
  ∀ (s : State) (b : Body), s.cfg.schema = SchemaTable.default → s.cfg.excess = .ignore → b.wellFormed = true →
    exec (.heartbeat b) s = .next (s.emit (.record (.heartbeat b.channel))) ∧
    (138 ≤ b.payload.length → exec (.synthesize b) s =
      .next (s.emit (.record (.synthesize b.channel ((List.range 6).map (slotAt s.cfg.loadKind b.payload)))))) ∧
    (b.payload.length < 138 → exec (.synthesize b) s = .next (s.emit (.fail .layout))) ∧
    (36 ≤ b.payload.length → exec (.addr b) s =
      .next (s.emit (.record (.addr b.channel ((List.range 6).map fun k => reversedEntryAt b.payload (6 * k)))))) ∧
    (b.payload.length < 36 → exec (.addr b) s = .next (s.emit (.fail .layout))) ∧
    (1 ≤ b.payload.length → exec (.machine b) s = .next (s.emit (.record
      (if byteAt b.payload 0 = 0x10 then .machine b.channel 0x10 .withDisplay true
       else .machine b.channel (u8At b.payload 0) .plain false)))) ∧
    (b.payload.length < 1 → exec (.machine b) s = .next (s.emit (.fail .layout))) ∧
    (4 ≤ b.payload.length → exec (.setV b) s = .next (s.emit (.record (.setV b.channel (u16At b.payload 0)
      (milli (u16At b.payload 0)) (u16At b.payload 2) (milli (u16At b.payload 2)))))) ∧
    (b.payload.length < 4 → exec (.setV b) s = .next (s.emit (.fail .layout))) ∧
    (4 ≤ b.payload.length → exec (.setI b) s = .next (s.emit (.record (.setI b.channel (u16At b.payload 0)
      (milli (u16At b.payload 0)) (u16At b.payload 2) (milli (u16At b.payload 2)))))) ∧
    (b.payload.length < 4 → exec (.setI b) s = .next (s.emit (.fail .layout))) ∧
    (6 ≤ b.payload.length → exec (.setAddr b) s = .next (s.emit (.record (.setAddr b.channel (naturalEntryAt b.payload 0))))) ∧
    (b.payload.length < 6 → exec (.setAddr b) s = .next (s.emit (.fail .layout))) ∧
    (36 ≤ b.payload.length → exec (.setAllAddr b) s =
      .next (s.emit (.record (.setAllAddr b.channel ((List.range 6).map fun k => naturalEntryAt b.payload (6 * k)))))) ∧
    (b.payload.length < 36 → exec (.setAllAddr b) s = .next (s.emit (.fail .layout)))

/-! ## Frames and completion -/

/-- Decoding, of whichever type, has no effect on the block but one event: the buffer (every byte of it), the configuration and the pending
operations are as before (43_commands.md R184). -/
def Obligations.InstructionsChangeOnlyTheOutput : Prop :=
  ∀ (i : Instr) (s t : State), exec i s = .next t →
    t.buf = s.buf ∧ (∀ k, t.readStream k = s.readStream k) ∧ t.cfg = s.cfg ∧ t.inbox = s.inbox ∧
    ∃ e, t.events = s.events ++ [e]

/-- Every instruction, of whatever size, checksum and payload, in every state and under every configuration, completes with exactly one event
(41_validator_dispatch.md R126, 60_exceptions.md R230; a value no rule states is free, log entry 11). -/
def Obligations.EveryInstructionGivesOneEvent : Prop :=
  ∀ (i : Instr) (s : State), ∃ e, exec i s = .next (s.emit e)

/-! ## Operations -/

/-- `CLEAR` empties the buffer, emits nothing and changes nothing else (40_assembler.md R101). -/
def Obligations.ClearEmptiesTheBuffer : Prop :=
  ∀ (s : State) (rest : List Operation), s.cfg.wellFormed = true → s.inbox = .clear :: rest →
    step s = .next { buf := [], cfg := s.cfg, inbox := rest, events := s.events }

/-- `RESET` empties the buffer, emits nothing and leaves the configuration (40_assembler.md R90; that a new instance is empty is decision D11,
log entry 4). -/
def Obligations.ResetEmptiesTheBuffer : Prop :=
  ∀ (s : State) (rest : List Operation), s.cfg.wellFormed = true → s.inbox = .reset :: rest →
    step s = .next { buf := [], cfg := s.cfg, inbox := rest, events := s.events }

/-- `PUSH(b)` is `APPEND([b])` (40_assembler.md R100, decision D10). -/
def Obligations.PushIsAppendOfOneByte : Prop :=
  ∀ (s : State) (b : Byte) (rest : List Operation),
    step (s.withInbox (.push b :: rest)) = step (s.withInbox (.append [b] :: rest))

/-- Step 1: where the pending bytes and the chunk hold no magic sequence, a buffer over the bound is discarded whole and any other is kept whole,
without an event (40_assembler.md R94). -/
def Obligations.MagicFreeBuffersAreKeptOrDiscarded : Prop :=
  ∀ (s : State) (chunk : List Byte) (rest : List Operation), s.cfg.wellFormed = true → s.inbox = .append chunk :: rest →
    NoMagic (s.buf ++ chunk) →
    step s = .next ((s.withInbox rest).withBuf (if (s.buf ++ chunk).length > s.cfg.discardBound then [] else s.buf ++ chunk))

/-- Step 2: the bytes before the first magic sequence are dropped, without an event, and the pass goes on with the rest (40_assembler.md R95). -/
def Obligations.LeadingGarbageIsDropped : Prop :=
  ∀ (s : State) (garbage tail : List Byte) (n : Nat), s.buf = garbage ++ tail → StartsWithMagic tail →
    (∀ k, k < garbage.length → ¬ ((garbage ++ tail)[k]? = some magicByte ∧ (garbage ++ tail)[k + 1]? = some magicByte)) →
    process (n + 1) s = process (n + 1) (s.withBuf tail)

/-- Steps 3 to 6 on a buffer that begins with the magic: a short header waits, an implausible header loses its first byte and is scanned again, a
partial frame waits, and a whole frame is removed, gives the one event `Decode` of it is, and the loop goes on behind it (40_assembler.md
R96 to R99). -/
def Obligations.HeaderStepsFollowTheAlgorithm : Prop :=
  ∀ (s : State) (n : Nat), StartsWithMagic s.buf →
    (s.buf.length < 4 → process (n + 1) s = .next s) ∧
    (4 ≤ s.buf.length → (∀ t size, ¬ PlausibleHeader s.cfg s.buf t size) →
      process (n + 1) s = process n (s.withBuf (s.buf.drop 1))) ∧
    (∀ t size, PlausibleHeader s.cfg s.buf t size →
      (s.buf.length < size.toNat → process (n + 1) s = .next s) ∧
      (size.toNat ≤ s.buf.length → process (n + 1) s =
        process n ((s.withBuf (s.buf.drop size.toNat)).emit (specDecode s.cfg (s.buf.take size.toNat)))))

/-- `Process` ends after at most `len(buf) + 1` passes: more are never used (40_assembler.md R103). -/
def Obligations.ProcessEndsWithinItsPassBound : Prop :=
  ∀ (s : State) (n : Nat), s.buf.length + 1 ≤ n → process n s = process (s.buf.length + 1) s

/-- Appending nothing to a quiescent buffer is a no-op (40_assembler.md R104). -/
def Obligations.EmptyAppendIsNoOp : Prop :=
  ∀ (s : State) (rest : List Operation), Inv s → s.inbox = .append [] :: rest → step s = .next (s.withInbox rest)

/-- No operation writes the configuration (70_reset_and_hazards.md R242). -/
def Obligations.StepKeepsTheConfiguration : Prop :=
  ∀ (s t : State), step s = .next t → t.cfg = s.cfg

/-- A step takes one operation off the queue and removes no event already delivered (10_state.md R28; queue and event list are the model's,
log entries 2 and 3). -/
def Obligations.StepKeepsDeliveredEvents : Prop :=
  ∀ (s t : State), step s = .next t → t.inbox = s.inbox.tail ∧ ∃ es, t.events = s.events ++ es

/-- An ill-formed configuration is refused at every step, whichever of the five conditions of 70_reset_and_hazards.md R243 (1) it fails: the bound,
the codes' range, their injectivity, a `COND` without an earlier field (or with a branch that is not the one descriptor of 30_encoding.md R68), a
`REST` that is not the last of a top-level row (92_eei_decisions.md D19; where in a run it is refused is the model's choice, log entry 10). -/
def Obligations.IllFormedConfigurationIsRefused : Prop :=
  ∀ (s : State), (s.cfg.discardBound = 0 ∨ s.cfg.codesInRange = false ∨ s.cfg.typeCode.injective = false ∨
      (∃ m, (s.cfg.schema.row m).condsPrecede [] = false) ∨ (∃ m, (s.cfg.schema.row m).restLast true = false)) →
    step s = .refused .illFormedConfiguration

/-- With no operation pending the block holds its state (60_exceptions.md R235; the idle step is the model's choice, log entry 2). -/
def Obligations.IdleStepHoldsTheState : Prop :=
  ∀ (s : State), s.cfg.wellFormed = true → s.inbox = [] → step s = .next s

/-! ## Invariants -/

/-- Reset leaves an empty buffer, no pending operation and no event (70_reset_and_hazards.md R240, log entries 2 to 4), and meets the invariant. -/
def Obligations.ResetMeetsTheInvariant : Prop :=
  Inv State.reset ∧ State.reset.buf = [] ∧ State.reset.inbox = [] ∧ State.reset.events = []

/-- Every step keeps the invariant: a well-formed configuration, and a buffer in one of the quiescent shapes Q0, Q1, Q2 (40_assembler.md R103). -/
def Obligations.StepKeepsTheInvariant : Prop :=
  ∀ (s t : State), Inv s → step s = .next t → Inv t

/-- After `RESET`, `CLEAR`, `APPEND` or `PUSH` the buffer is quiescent whatever it was before (40_assembler.md R103). -/
def Obligations.StreamOperationsEndQuiescent : Prop :=
  ∀ (s t : State) (op : Operation) (rest : List Operation), s.cfg.wellFormed = true → s.inbox = op :: rest →
    (∀ f, op ≠ .decode f) → step s = .next t → Quiescent t.cfg t.buf

/-- A quiescent buffer is within the occupancy bound, and with one byte more within `BUF_CAP` (10_state.md R22, 40_assembler.md R103). -/
def Obligations.QuiescentBuffersAreBounded : Prop :=
  ∀ (cfg : Config) (buf : List Byte), Quiescent cfg buf →
    buf.length ≤ max cfg.discardBound 254 ∧ buf.length + 1 ≤ cfg.bufCap

/-- With a well-formed configuration no step in any state, on any input, stops the machine (60_exceptions.md R229, R230). It has no fault (log entry
14), and a record rule whose field the configured row lacks takes a free value (log entry 11). -/
def Obligations.NothingStopsTheBlock : Prop :=
  ∀ (s : State), s.cfg.wellFormed = true → ∃ t, step s = .next t

/-! ## The stream as a whole -/

/-- `APPEND` decodes the candidate frames of the buffer in order, one event each, all within the operation, and leaves what the algorithm leaves
(40_assembler.md R91, R92). -/
def Obligations.AppendDeliversOneEventPerFrame : Prop :=
  ∀ (s : State) (chunk : List Byte) (rest : List Operation), s.cfg.wellFormed = true → s.inbox = .append chunk :: rest →
    step s = .next { buf := leftoverOf s.cfg (s.buf ++ chunk), cfg := s.cfg, inbox := rest,
                     events := s.events ++ (framesOf s.cfg (s.buf ++ chunk)).map (specDecode s.cfg) }

/-- Conservation: every byte pending or appended is dropped, or is part of exactly one candidate frame, or is still in the buffer, in order; the
events are those of the frames, in order (40_assembler.md R105). -/
def Obligations.EveryByteHasOneFate : Prop :=
  ∀ (s t : State) (chunk : List Byte) (rest : List Operation), s.inbox = .append chunk :: rest → step s = .next t →
    ∃ pieces : List Piece,
      s.buf ++ chunk = (pieces.map Piece.bytes).flatten ++ t.buf ∧
      (∀ f, .frame f ∈ pieces → CandidateFrame s.cfg f) ∧
      t.events = s.events ++ (pieces.filterMap Piece.frame?).map (specDecode s.cfg)

/-- The stream path gives no `FAIL_MAGIC` and no `FAIL_SIZE` (40_assembler.md R107). -/
def Obligations.StreamPathFailsOnlyOnChecksumOrLayout : Prop :=
  ∀ (s t : State) (chunk : List Byte) (rest : List Operation), s.inbox = .append chunk :: rest → step s = .next t →
    ∃ es, t.events = s.events ++ es ∧ Event.fail .magic ∉ es ∧ Event.fail .size ∉ es

/-- Chunking: where the discard fires in neither of the two appends, appending a stream in two chunks is appending it in one: the same events, the
same buffer (40_assembler.md R106). -/
def Obligations.ChunkingDoesNotMatterWithoutDiscard : Prop :=
  ∀ (s : State) (a b : List Byte) (rest : List Operation), s.cfg.wellFormed = true →
    discardFires s.cfg (s.buf ++ a) = false →
    discardFires s.cfg (leftoverOf s.cfg (s.buf ++ a) ++ b) = false →
    runSteps 2 (s.withInbox (.append a :: .append b :: rest)) = runSteps 1 (s.withInbox (.append (a ++ b) :: rest))

/-- Chunking invariance of valid streams: a concatenation of candidate frames, cut into chunks in any way and appended to an empty buffer, gives the
event of each frame, in order, and leaves the buffer empty (40_assembler.md R106, the source's property). -/
def Obligations.FrameStreamsDecodeInAnyChunking : Prop :=
  ∀ (s : State) (frames chunks : List (List Byte)) (rest : List Operation), s.cfg.wellFormed = true → s.buf = [] →
    (∀ f, f ∈ frames → CandidateFrame s.cfg f) → chunks.flatten = frames.flatten →
    runSteps chunks.length (s.withInbox (chunks.map Operation.append ++ rest)) =
      .next { buf := [], cfg := s.cfg, inbox := rest, events := s.events ++ frames.map (specDecode s.cfg) }

/-- Noise of any length in front of a frame in the same `APPEND` is dropped and the frame decodes, whatever bytes it holds, so long as no magic
sequence in it forms a plausible header with what follows it (40_assembler.md R108, the exact condition). -/
def Obligations.NoiseBeforeAFrameIsSkipped : Prop :=
  ∀ (s : State) (noise f : List Byte) (rest : List Operation), s.cfg.wellFormed = true → s.buf = [] →
    NoFalseHeader s.cfg noise f → CandidateFrame s.cfg f → s.inbox = .append (noise ++ f) :: rest →
    step s = .next ((s.withInbox rest).emit (specDecode s.cfg f))

/-- Byte-serial noise of at most `DISCARD_BOUND - 1` bytes in front of a frame is dropped and the frame decodes, under the same condition on its
magic sequences (40_assembler.md R108, the exact condition). -/
def Obligations.PushedNoiseWithinTheBoundIsSkipped : Prop :=
  ∀ (s : State) (noise f : List Byte) (rest : List Operation), s.cfg.wellFormed = true → s.buf = [] →
    NoFalseHeader s.cfg noise f → noise.length + 1 ≤ s.cfg.discardBound → CandidateFrame s.cfg f →
    runSteps (noise ++ f).length (s.withInbox ((noise ++ f).map Operation.push ++ rest)) =
      .next ((s.withInbox rest).emit (specDecode s.cfg f))

/-! ## Operands -/

/-- Multi-byte scalars are little-endian (20_memory.md R40). -/
def Obligations.ScalarsAreLittleEndian : Prop :=
  ∀ (f : List Byte) (p : Nat),
    (p + 2 ≤ f.length → memRead f p 2 = (byteAt f p).toNat + 256 * (byteAt f (p + 1)).toNat) ∧
    (p + 4 ≤ f.length → memRead f p 4 = (byteAt f p).toNat + 256 * (byteAt f (p + 1)).toNat +
      65536 * (byteAt f (p + 2)).toNat + 16777216 * (byteAt f (p + 3)).toNat)

/-- The cursor never moves back and never passes the end of the frame, for every schema (10_state.md R24, 41_validator_dispatch.md R128, R129). -/
def Obligations.CursorStaysInTheFrame : Prop :=
  ∀ (cfg : Config) (f : List Byte) (sch : Schema) (pos pos' : Nat) (r r' : Rec),
    pos ≤ f.length → readSchema cfg f sch pos r = .ok (r', pos') → pos ≤ pos' ∧ pos' ≤ f.length

/-- The only failure of the interpreter is `FAIL_LAYOUT`, for every schema (60_exceptions.md R224). -/
def Obligations.InterpreterFailsOnlyWithLayout : Prop :=
  ∀ (cfg : Config) (sch : Schema) (f : List Byte) (k : FailKind), interpret cfg sch f = .error k → k = .layout

/-- `COND`: exactly one of the two fields is read, the first if the earlier field equals the value as a number and the second otherwise, for
every record so far (30_encoding.md R68, 41_validator_dispatch.md R131). Where the record has no field of that name the number compared is free, the
model's choice (log entry 19). -/
def Obligations.CondReadsExactlyOneBranch : Prop :=
  ∀ (cfg : Config) (f : List Byte) (ref a b : FieldName) (v : CondValue) (pos pos' : Nat) (r r' : Rec),
    a ≠ b → r.find? a = none → r.find? b = none →
    readSchema cfg f (.cond ref v (.u8 a .done) (.u8 b .done) .done) pos r = .ok (r', pos') →
    pos' = pos + 1 ∧
    (r'.nat? a = some (memRead f pos 1) ∧ r'.find? b = none ∨ r'.nat? b = some (memRead f pos 1) ∧ r'.find? a = none) ∧
    (∀ x, r.find? ref = some x → (x = .nat (v.value cfg) ↔ r'.nat? a = some (memRead f pos 1)))

/-- In every synthesize record an instruction delivers, under whatever configured row, the three flags of a slot each keep their own comparison of
the raw value beside them (41_validator_dispatch.md R138, 42_reports.md R150). Which flag uses which comparison is read from one sentence of the source
(log entry 20, DEDUCED); where the row lacks the field the raw value is free and the flag is computed from it (log entry 11). -/
def Obligations.SlotFlagsKeepTheirOwnComparison : Prop :=
  ∀ (i : Instr) (s t : State) (ch : Byte) (slots : List SynthSlot) (slot : SynthSlot),
    exec i s = .next t → t.events = s.events ++ [.record (.synthesize ch slots)] → slot ∈ slots →
    (slot.online = true ↔ slot.onlineRaw ≠ 0) ∧ (slot.output = true ↔ slot.outputRaw ≠ 0) ∧ (slot.lock = true ↔ slot.lockRaw = 1)

/-- A converted value is the exact quotient of its raw value, in lowest terms (41_validator_dispatch.md R136, R137, decision D16; lowest terms are the
model's choice, log entry 15). -/
def Obligations.ConvertedValuesAreExactQuotients : Prop :=
  ∀ (raw : Nat),
    ((milli raw).num * 1000 = raw * (milli raw).den ∧ 0 < (milli raw).den ∧ Nat.Coprime (milli raw).num (milli raw).den) ∧
    ((deci raw).num * 10 = raw * (deci raw).den ∧ 0 < (deci raw).den ∧ Nat.Coprime (deci raw).num (deci raw).den)

/-! ## The encoder at the boundary -/

/-- Round trip: the encoder builds a frame for every intent whose parameters are in range, and whatever frame it builds for an intent, running it
delivers the record the intent stands for, raw fields exact (44_encoder_boundary.md R207; decisions D7, D8, D17 for the layouts and the
rounding, log entries 7 and 16). -/
def Obligations.EncodedIntentsDecodeToTheirRecord : Prop :=
  ∀ (s : State) (x : Intent), s.cfg.wellFormed = true → s.cfg.schema = SchemaTable.default →
    (x.valid → ∃ f, encodeIntent s.cfg x = .ok f) ∧
    (∀ f, encodeIntent s.cfg x = .ok f → ∃ r, x.record? = some r ∧ runFrame f s = .next (s.emit (.record r)))

/-- A milli-value that rounds to at most 65535 is packed, within half a quantum of the parameter; a negative one, and one that rounds higher, is a
validation failure (44_encoder_boundary.md R203, R207; decision D17, log entry 16). -/
def Obligations.RoundingIsWithinHalfAQuantum : Prop :=
  ∀ (x : Rat),
    (packable x → ∃ raw, milliRaw x = .ok raw) ∧
    (∀ raw, milliRaw x = .ok raw →
      0 ≤ x ∧ raw ≤ 65535 ∧ (raw : Rat) / 1000 ≤ x + 1 / 2000 ∧ x < (raw : Rat) / 1000 + 1 / 2000) ∧
    (¬ packable x → milliRaw x = .error .outOfRange)

/-- A wrong address length or entry count is a validation failure and yields no frame (44_encoder_boundary.md R205). That a wrong count is the failure
reported where an address is of wrong length too is the model's choice (log entry 16). -/
def Obligations.BadAddressParametersYieldNoFrame : Prop :=
  ∀ (cfg : Config) (channel : Byte),
    (∀ (address : List Byte) (offset : Byte), address.length ≠ 5 →
      encodeIntent cfg (.setAddr address offset channel) = .error .addressLength) ∧
    (∀ (entries : List (List Byte × Byte)), entries.length ≠ 6 →
      encodeIntent cfg (.setAllAddr entries channel) = .error .entryCount) ∧
    (∀ (entries : List (List Byte × Byte)), entries.length = 6 → (∃ e, e ∈ entries ∧ e.1.length ≠ 5) →
      encodeIntent cfg (.setAllAddr entries channel) = .error .addressLength)
end

