-- ==== Sys2Proof/Laws/State.lean ====
section
/-!
SUPPORT. One lemma per field of the state per update of it, so that no later proof unfolds a record update.
-/

namespace Sys2Proof.Machine

variable (s : State) (b : List Byte) (ops : List Operation) (e : Event)

@[simp] theorem State.withBuf_buf : (s.withBuf b).buf = b := rfl
@[simp] theorem State.withBuf_cfg : (s.withBuf b).cfg = s.cfg := rfl
@[simp] theorem State.withBuf_inbox : (s.withBuf b).inbox = s.inbox := rfl
@[simp] theorem State.withBuf_events : (s.withBuf b).events = s.events := rfl

@[simp] theorem State.withInbox_buf : (s.withInbox ops).buf = s.buf := rfl
@[simp] theorem State.withInbox_cfg : (s.withInbox ops).cfg = s.cfg := rfl
@[simp] theorem State.withInbox_inbox : (s.withInbox ops).inbox = ops := rfl
@[simp] theorem State.withInbox_events : (s.withInbox ops).events = s.events := rfl

@[simp] theorem State.emit_buf : (s.emit e).buf = s.buf := rfl
@[simp] theorem State.emit_cfg : (s.emit e).cfg = s.cfg := rfl
@[simp] theorem State.emit_inbox : (s.emit e).inbox = s.inbox := rfl
@[simp] theorem State.emit_events : (s.emit e).events = s.events ++ [e] := rfl

@[simp] theorem State.appendTail_buf : (s.appendTail b).buf = s.buf ++ b := rfl
@[simp] theorem State.appendTail_cfg : (s.appendTail b).cfg = s.cfg := rfl
@[simp] theorem State.appendTail_inbox : (s.appendTail b).inbox = s.inbox := rfl
@[simp] theorem State.appendTail_events : (s.appendTail b).events = s.events := rfl

@[simp] theorem State.emptyBuf_buf : s.emptyBuf.buf = [] := rfl
@[simp] theorem State.emptyBuf_cfg : s.emptyBuf.cfg = s.cfg := rfl
@[simp] theorem State.emptyBuf_inbox : s.emptyBuf.inbox = s.inbox := rfl
@[simp] theorem State.emptyBuf_events : s.emptyBuf.events = s.events := rfl

@[simp] theorem State.withBuf_self : s.withBuf s.buf = s := rfl
@[simp] theorem State.withBuf_withBuf (c : List Byte) : (s.withBuf b).withBuf c = s.withBuf c := rfl
theorem State.emit_withBuf : (s.emit e).withBuf b = (s.withBuf b).emit e := rfl

end Sys2Proof.Machine
end

