-- ==== Sys2Proof/Laws/Assembler.lean ====
section
/-!
SUPPORT. Everything the shared operations of the assembler can do, said once: the magic search, one pass, one frame, the loop.
-/

namespace Sys2Proof.Machine

/-! ## The magic search -/

theorem findMagic_cons_cons (a b : Byte) (rest : List Byte) :
    findMagic (a :: b :: rest) =
      if a = magicByte ∧ b = magicByte then some 0 else (findMagic (b :: rest)).map (· + 1) := by
  rw [findMagic]

@[simp] theorem findMagic_nil : findMagic [] = none := by simp [findMagic]
@[simp] theorem findMagic_singleton (a : Byte) : findMagic [a] = none := by simp [findMagic]

/-- The search finds nothing exactly where no two magic bytes stand. -/
theorem findMagic_eq_none_iff (buf : List Byte) : findMagic buf = none ↔ NoMagic buf := by
  induction buf with
  | nil => simp [NoMagic]
  | cons a buf ih =>
    cases buf with
    | nil => simp [NoMagic]
    | cons b rest =>
      rw [findMagic_cons_cons]
      constructor
      · intro h k
        by_cases hab : a = magicByte ∧ b = magicByte
        · simp [hab] at h
        · rw [if_neg hab] at h
          cases k with
          | zero => simpa using hab
          | succ k =>
            have := (ih.mp (by simpa using h)) k
            simpa using this
      · intro h
        have hab : ¬ (a = magicByte ∧ b = magicByte) := by simpa using h 0
        rw [if_neg hab, ih.mpr (fun k => by simpa using h (k + 1))]
        rfl

/-- Where the search finds index `k`, the buffer from `k` on begins with the magic. -/
theorem findMagic_startsWithMagic {buf : List Byte} {k : Nat} (h : findMagic buf = some k) :
    StartsWithMagic (buf.drop k) := by
  induction buf generalizing k with
  | nil => simp at h
  | cons a buf ih =>
    cases buf with
    | nil => simp at h
    | cons b rest =>
      rw [findMagic_cons_cons] at h
      by_cases hab : a = magicByte ∧ b = magicByte
      · rw [if_pos hab] at h
        cases h
        simp [StartsWithMagic, hab]
      · rw [if_neg hab] at h
        cases hk : findMagic (b :: rest) with
        | none => simp [hk] at h
        | some j =>
          simp only [hk, Option.map_some, Option.some.injEq] at h
          subst h
          simpa using ih hk

/-- A buffer that begins with the magic is found at index 0. -/
theorem findMagic_of_startsWithMagic {buf : List Byte} (h : StartsWithMagic buf) : findMagic buf = some 0 := by
  match buf, h with
  | [], h => simp [StartsWithMagic] at h
  | [_], h => simp [StartsWithMagic] at h
  | a :: b :: rest, h =>
    have : a = magicByte ∧ b = magicByte := by simpa [StartsWithMagic] using h
    rw [findMagic_cons_cons, if_pos this]

/-! ## One pass -/

/-- Step 4's test in numbers. -/
theorem plausible_iff (cfg : Config) (t size : Byte) :
    plausible cfg t size = true ↔
      cfg.typeMin.toNat ≤ t.toNat ∧ t.toNat ≤ cfg.typeMax.toNat ∧ 6 ≤ size.toNat ∧ size.toNat ≤ 255 := by
  simp only [plausible, Bool.and_eq_true, decide_eq_true_eq, BitVec.le_def, and_assoc]
  rfl

/-- Everything steps 3 to 6 can do with a buffer that begins with the magic. -/
theorem headerPass_cases (cfg : Config) {buf : List Byte} (h : StartsWithMagic buf) :
    (headerPass cfg buf = .stop buf ∧ (buf.length = 2 ∨ buf.length = 3)) ∨
    (∃ t size, PlausibleHeader cfg buf t size ∧ 4 ≤ buf.length ∧ buf.length < size.toNat ∧ headerPass cfg buf = .stop buf) ∨
    (∃ t size, PlausibleHeader cfg buf t size ∧ size.toNat ≤ buf.length ∧
      headerPass cfg buf = .candidate (buf.take size.toNat) (buf.drop size.toNat)) ∨
    (4 ≤ buf.length ∧ (∀ t size, ¬ PlausibleHeader cfg buf t size) ∧ headerPass cfg buf = .retry (buf.drop 1)) := by
  match buf, h with
  | [], h => simp [StartsWithMagic] at h
  | [_], h => simp [StartsWithMagic] at h
  | [_, _], _ => exact .inl ⟨rfl, .inl rfl⟩
  | [_, _, _], _ => exact .inl ⟨rfl, .inr rfl⟩
  | a :: b :: t :: size :: rest, h =>
    by_cases hp : plausible cfg t size = true
    · have hd : PlausibleHeader cfg (a :: b :: t :: size :: rest) t size :=
        ⟨h, rfl, rfl, (plausible_iff cfg t size).mp hp⟩
      by_cases hl : (a :: b :: t :: size :: rest).length < size.toNat
      · exact .inr (.inl ⟨t, size, hd, by simp, hl, by simp only [headerPass, hp, hl, if_true]⟩)
      · exact .inr (.inr (.inl ⟨t, size, hd, Nat.le_of_not_lt hl, by simp only [headerPass, hp, hl, if_true, if_false]⟩))
    · refine .inr (.inr (.inr ⟨by simp, ?_, by simp [headerPass, hp]⟩))
      rintro t' size' ⟨-, ht, hs, hr⟩
      simp only [List.getElem?_cons_succ, List.getElem?_cons_zero, Option.some.injEq] at ht hs
      subst ht hs
      exact hp ((plausible_iff cfg _ _).mpr hr)

/-- A pass is the discard test where no magic stands, and steps 3 to 6 on the trimmed buffer where one does. -/
theorem pass_of_noMagic (cfg : Config) {buf : List Byte} (h : NoMagic buf) :
    pass cfg buf = .stop (if cfg.discardBound < buf.length then [] else buf) := by
  simp only [pass, (findMagic_eq_none_iff buf).mpr h]

theorem pass_of_findMagic (cfg : Config) {buf : List Byte} {k : Nat} (h : findMagic buf = some k) :
    pass cfg buf = headerPass cfg (buf.drop k) := by
  simp only [pass, h]

theorem pass_of_startsWithMagic (cfg : Config) {buf : List Byte} (h : StartsWithMagic buf) :
    pass cfg buf = headerPass cfg buf := by
  simpa using pass_of_findMagic cfg (findMagic_of_startsWithMagic h)

/-- A pass that does not return makes the buffer strictly shorter. -/
theorem pass_retry_length {cfg : Config} {buf b : List Byte} (h : pass cfg buf = .retry b) : b.length < buf.length := by
  cases hk : findMagic buf with
  | none => simp [pass, hk] at h
  | some k =>
    rw [pass_of_findMagic cfg hk] at h
    have hs := findMagic_startsWithMagic hk
    rcases headerPass_cases cfg hs with ⟨e, -⟩ | ⟨_, _, -, -, -, e⟩ | ⟨_, _, -, -, e⟩ | ⟨hl, -, e⟩ <;> rw [e] at h <;> cases h
    simp only [List.length_drop] at *
    omega

/-- A pass that yields a candidate removes at least six bytes. -/
theorem pass_candidate_length {cfg : Config} {buf f b : List Byte} (h : pass cfg buf = .candidate f b) :
    b.length + 6 ≤ buf.length := by
  cases hk : findMagic buf with
  | none => simp [pass, hk] at h
  | some k =>
    rw [pass_of_findMagic cfg hk] at h
    have hs := findMagic_startsWithMagic hk
    rcases headerPass_cases cfg hs with ⟨e, -⟩ | ⟨_, _, -, -, -, e⟩ | ⟨_, _, hp, hl, e⟩ | ⟨-, -, e⟩ <;> rw [e] at h <;> cases h
    have := hp.2.2.2.2.2.1
    simp only [List.length_drop] at *
    omega

/-! ## One frame -/

/-- Everything a frame of a named type can do: one event. -/
theorem runNamed_cases (m : PacketType) (finish : Finish) (b : Body) (s : State) : ∃ e, runNamed m finish b s = .next (s.emit e) := by
  unfold runNamed
  split
  · exact ⟨_, rfl⟩
  · dsimp only
    split <;> exact ⟨_, rfl⟩

/-- Everything a frame of an unknown type can do: one event. -/
theorem runUnknown_cases (t : Byte) (b : Body) (s : State) : ∃ e, runUnknown t b s = .next (s.emit e) := by
  unfold runUnknown
  split <;> exact ⟨_, rfl⟩

/-- An instruction of a named type runs as its type's finishing rule says. -/
theorem exec_ofType (m : PacketType) (b : Body) (s : State) : exec (Instr.ofType m b) s = runNamed m (finishOf m) b s := by
  cases m <;> rfl

/-- Every instruction is one of a named type, or of the fallback row. -/
theorem Instr_ofType_or_opaque (i : Instr) : (∃ m b, i = Instr.ofType m b) ∨ (∃ t b, i = .opaquePacket t b) := by
  cases i with
  | synthesize b => exact .inl ⟨.synthesize, b, rfl⟩
  | wave b => exact .inl ⟨.wave, b, rfl⟩
  | addr b => exact .inl ⟨.addr, b, rfl⟩
  | updateCh b => exact .inl ⟨.updateCh, b, rfl⟩
  | machine b => exact .inl ⟨.machine, b, rfl⟩
  | setOutput b => exact .inl ⟨.setOutput, b, rfl⟩
  | getAddr b => exact .inl ⟨.getAddr, b, rfl⟩
  | setAddr b => exact .inl ⟨.setAddr, b, rfl⟩
  | setCh b => exact .inl ⟨.setCh, b, rfl⟩
  | setV b => exact .inl ⟨.setV, b, rfl⟩
  | setI b => exact .inl ⟨.setI, b, rfl⟩
  | setAllAddr b => exact .inl ⟨.setAllAddr, b, rfl⟩
  | startAutoMatch b => exact .inl ⟨.startAutoMatch, b, rfl⟩
  | stopAutoMatch b => exact .inl ⟨.stopAutoMatch, b, rfl⟩
  | resetToDfu b => exact .inl ⟨.resetToDfu, b, rfl⟩
  | rgb b => exact .inl ⟨.rgb, b, rfl⟩
  | getMachine b => exact .inl ⟨.getMachine, b, rfl⟩
  | heartbeat b => exact .inl ⟨.heartbeat, b, rfl⟩
  | err b => exact .inl ⟨.err, b, rfl⟩
  | opaquePacket t b => exact .inr ⟨t, b, rfl⟩

/-- How every instruction runs: as a named type's finishing rule says, or as the fallback. -/
theorem exec_shape (i : Instr) (s : State) :
    (∃ m b, exec i s = runNamed m (finishOf m) b s) ∨ (∃ t b, exec i s = runUnknown t b s) := by
  rcases Instr_ofType_or_opaque i with ⟨m, b, rfl⟩ | ⟨t, b, rfl⟩
  · exact .inl ⟨m, b, exec_ofType m b s⟩
  · exact .inr ⟨t, b, rfl⟩

/-! ## The loop -/

theorem process_succ (passes : Nat) (s : State) :
    process (passes + 1) s =
      match pass s.cfg s.buf with
      | .stop buf => .next (s.withBuf buf)
      | .retry buf => process passes (s.withBuf buf)
      | .candidate f buf =>
        match runFrame f (s.withBuf buf) with
        | .next t => process passes t
        | .fault x => .fault x
        | .refused x => .refused x := rfl

/-! ## The step -/

theorem step_of_operation {s : State} {op : Operation} {ops : List Operation} (hc : s.cfg.wellFormed = true)
    (hi : s.inbox = op :: ops) : step s = perform op (s.withInbox ops) := by
  simp only [step, advance, hc, if_true, hi]

theorem step_of_illFormed {s : State} (hc : s.cfg.wellFormed = false) : step s = .refused .illFormedConfiguration := by
  simp [step, advance, hc]

end Sys2Proof.Machine
end

