-- ==== Sys2Proof/Laws/Bytes.lean ====
section
/-!
SUPPORT. The checksum and the byte order, said once.
-/

namespace Sys2Proof.Machine

@[simp] theorem xorReduce_nil : xorReduce [] = 0 := rfl
@[simp] theorem xorReduce_cons (b : Byte) (bs : List Byte) : xorReduce (b :: bs) = b ^^^ xorReduce bs := rfl

theorem xorReduce_append (a b : List Byte) : xorReduce (a ++ b) = xorReduce a ^^^ xorReduce b := by
  induction a with
  | nil => simp
  | cons x xs ih => simp [ih, BitVec.xor_assoc]

@[simp] theorem leValue_nil : leValue [] = 0 := rfl
@[simp] theorem leValue_cons (b : Byte) (bs : List Byte) : leValue (b :: bs) = b.toNat + 256 * leValue bs := rfl

@[simp] theorem leBytes_length (n v : Nat) : (leBytes n v).length = n := by
  induction n generalizing v with
  | zero => rfl
  | succ n ih => simp [leBytes, ih]

/-- Unpacking what was packed gives the number, reduced to the width. -/
theorem leValue_leBytes (n v : Nat) : leValue (leBytes n v) = v % 256 ^ n := by
  induction n generalizing v with
  | zero => simp [leBytes, Nat.mod_one]
  | succ n ih =>
    simp only [leBytes, leValue_cons, ih, BitVec.toNat_ofNat]
    have : 256 ^ (n + 1) = 256 * 256 ^ n := by rw [Nat.pow_succ, Nat.mul_comm]
    rw [this, Nat.mod_mul]

end Sys2Proof.Machine
end

