-- ==== Sys2Proof/Laws/Memory.lean ====
section
/-!
SUPPORT. The stream space as cells: whatever an operation leaves in `buf`, its cells are in the canonical form, and reading one offset
after an append or a removal.
-/

namespace Sys2Proof.Machine

theorem Memory.cellsFrom_address {i : Nat} {m : List Byte} {c : Host.Cell} (h : c ∈ Memory.cellsFrom i m) : i ≤ c.1 := by
  induction m generalizing i with
  | nil => simp [Memory.cellsFrom] at h
  | cons b bs ih =>
    simp only [Memory.cellsFrom, List.mem_cons] at h
    rcases h with rfl | h
    · exact Nat.le_refl _
    · exact Nat.le_of_succ_le (ih h)

theorem Memory.cellsFrom_rising (i : Nat) (m : List Byte) : (Memory.cellsFrom i m).Pairwise fun a b => a.1 < b.1 := by
  induction m generalizing i with
  | nil => exact List.Pairwise.nil
  | cons b bs ih => exact List.Pairwise.cons (fun c hc => Memory.cellsFrom_address hc) (ih (i + 1))

/-- Every byte list is the stream space of canonical cells, so every operation keeps the form: `appendTail`, `withBuf`, `emptyBuf`. -/
theorem Memory.cells_wf (m : List Byte) : Memory.wf (Memory.cells m) = true :=
  decide_eq_true (Memory.cellsFrom_rising 0 m)

theorem Memory.cellsFrom_bytes (i : Nat) (m : List Byte) : (Memory.cellsFrom i m).map Prod.snd = m := by
  induction m generalizing i with
  | nil => rfl
  | cons b bs ih => simp [Memory.cellsFrom, ih]

/-- Equal cells are equal buffers. -/
theorem Memory.cells_injective {m n : List Byte} (h : Memory.cells m = Memory.cells n) : m = n := by
  have := congrArg (List.map Prod.snd) h
  simpa [Memory.cells, Memory.cellsFrom_bytes] using this

theorem reset_memory_wf : Memory.wf (Memory.cells State.reset.buf) = true := Memory.cells_wf _

/-- An append leaves every byte that was there where it was. -/
theorem readStream_appendTail_old {s : State} {chunk : List Byte} {k : Nat} (h : k < s.buf.length) :
    (s.appendTail chunk).readStream k = s.readStream k := by
  simp [State.readStream, List.getElem?_append_left h]

/-- A byte of the chunk stands behind what was there. -/
theorem readStream_appendTail_new (s : State) (chunk : List Byte) (k : Nat) :
    (s.appendTail chunk).readStream (s.buf.length + k) = chunk[k]? := by
  rw [State.readStream, State.appendTail_buf, List.getElem?_append_right (Nat.le_add_right _ _), Nat.add_sub_cancel_left]

/-- A removal from the head moves every later byte down. -/
theorem readStream_drop (s : State) (n k : Nat) : (s.withBuf (s.buf.drop n)).readStream k = s.readStream (n + k) := by
  simp [State.readStream]

end Sys2Proof.Machine
end

