-- ==== Sys2Proof/Laws/Operands.lean ====
section
/-!
SUPPORT. Reading the value tree by name, said once: a field that is bound in the shape asked for is that value, a sub-record that is
there is that sub-record, and a list by index has as many elements as it is asked for.
-/

namespace Sys2Proof.Machine

@[simp] theorem Rec.find?_nil (n : FieldName) : Rec.find? [] n = none := rfl
@[simp] theorem Rec.find?_cons (m n : FieldName) (x : Value) (r : Rec) :
    Rec.find? ((m, x) :: r) n = if m = n then some x else Rec.find? r n := rfl

theorem Rec.nat?_of_find? {r : Rec} {n : FieldName} {x : Nat} (h : r.find? n = some (.nat x)) : r.nat? n = some x := by
  rw [Rec.nat?, h]

/-- A reference that is bound to a number is compared as that number. -/
theorem refEquals_of_nat? {cfg : Config} {f : List Byte} {pos n v : Nat} {r : Rec} {ref : FieldName} (h : r.nat? ref = some n) :
    refEquals cfg f pos r ref v = (n == v) := by
  unfold Rec.nat? at h
  unfold refEquals
  split at h <;> cases h
  simp only [*]

theorem View.nat_of_nat? {v : View} {n : FieldName} {x : Nat} (h : v.fields.nat? n = some x) : v.nat n = x := by
  rw [View.nat, h]

theorem View.bytes_of_bytes? {v : View} {n : FieldName} {b : List Byte} (h : v.fields.bytes? n = some b) : v.bytes n = b := by
  rw [View.bytes, h]

theorem View.count_of_recs? {v : View} {n : FieldName} {rs : List Rec} (h : v.fields.recs? n = some rs) : v.count n = rs.length := by
  rw [View.count, h]

@[simp] theorem View.sub_cfg (v : View) (n : FieldName) (k : Nat) : (v.sub n k).cfg = v.cfg := rfl
@[simp] theorem View.sub_frame (v : View) (n : FieldName) (k : Nat) : (v.sub n k).frame = v.frame := rfl
@[simp] theorem View.sub_path (v : View) (n : FieldName) (k : Nat) : (v.sub n k).path = v.path ++ [k] := rfl

theorem View.sub_fields {v : View} {n : FieldName} {rs : List Rec} (h : v.fields.recs? n = some rs) (k : Nat) :
    (v.sub n k).fields = rs[k]?.getD [] := by
  rw [View.sub, h, Option.getD_some]

@[simp] theorem View.each_length {α : Type} (v : View) (n : FieldName) (count : Nat) (g : View → α) :
    (v.each n count g).length = count := by
  simp [View.each]

/-- An element of a list by index is what the rule makes of some sub-record. -/
theorem View.mem_each {α : Type} {v : View} {n : FieldName} {count : Nat} {g : View → α} {a : α} (h : a ∈ v.each n count g) :
    ∃ k, k < count ∧ g (v.sub n k) = a := by
  simpa [View.each] using h

end Sys2Proof.Machine
end

