-- ==== Sys2Proof/Laws/PerInstr.lean ====
section
/-!
SUPPORT. One family of statements made per instruction: under the default codes, the header word of every instruction's frame matches the
row of opcode_table.json that its constructor stands for (30_encoding.md R75).
-/

namespace Sys2Proof.Laws.HeaderWord

/-- The header word of the encoded instruction, under the row's mask, is the row's match. -/
def Statement (i : Instr) : Prop := headerWord (encode Config.default i) &&& i.tableMask = i.tableMatch

theorem headerWord_encode (cfg : Config) (i : Instr) :
    headerWord (encode cfg i) = 0x5A5A + 65536 * (i.typeByte cfg).toNat + 16777216 * i.body.size.toNat := by
  simp [headerWord, encode, frameBytes, magicByte]
  omega

theorem low24 (t size : Nat) (h : t < 256) : (0x5A5A + 65536 * t + 16777216 * size) &&& 0x00FFFFFF = 0x5A5A + 65536 * t := by
  have := Nat.and_two_pow_sub_one_eq_mod (0x5A5A + 65536 * t + 16777216 * size) 24
  simp only [Nat.reducePow, Nat.reduceSub] at this
  omega

theorem low16 (t size : Nat) : (0x5A5A + 65536 * t + 16777216 * size) &&& 0x0000FFFF = 0x5A5A := by
  have := Nat.and_two_pow_sub_one_eq_mod (0x5A5A + 65536 * t + 16777216 * size) 16
  simp only [Nat.reducePow, Nat.reduceSub] at this
  omega

/-- A row with a type code, from the code. -/
theorem of_code (i : Instr) (t : Byte) (ht : i.typeByte Config.default = t) (hm : i.tableMask = 0x00FFFFFF)
    (h : i.tableMatch = 0x5A5A + 65536 * t.toNat) : Statement i := by
  rw [Statement, headerWord_encode, hm, ht, low24 _ _ t.isLt, h]

theorem synthesize (b : Body) : Statement (.synthesize b) := of_code _ 0x11 rfl rfl (by simp [Instr.tableMatch])
theorem wave (b : Body) : Statement (.wave b) := of_code _ 0x12 rfl rfl (by simp [Instr.tableMatch])
theorem addr (b : Body) : Statement (.addr b) := of_code _ 0x13 rfl rfl (by simp [Instr.tableMatch])
theorem updateCh (b : Body) : Statement (.updateCh b) := of_code _ 0x14 rfl rfl (by simp [Instr.tableMatch])
theorem machine (b : Body) : Statement (.machine b) := of_code _ 0x15 rfl rfl (by simp [Instr.tableMatch])
theorem setOutput (b : Body) : Statement (.setOutput b) := of_code _ 0x16 rfl rfl (by simp [Instr.tableMatch])
theorem getAddr (b : Body) : Statement (.getAddr b) := of_code _ 0x17 rfl rfl (by simp [Instr.tableMatch])
theorem setAddr (b : Body) : Statement (.setAddr b) := of_code _ 0x18 rfl rfl (by simp [Instr.tableMatch])
theorem setCh (b : Body) : Statement (.setCh b) := of_code _ 0x19 rfl rfl (by simp [Instr.tableMatch])
theorem setV (b : Body) : Statement (.setV b) := of_code _ 0x1A rfl rfl (by simp [Instr.tableMatch])
theorem setI (b : Body) : Statement (.setI b) := of_code _ 0x1B rfl rfl (by simp [Instr.tableMatch])
theorem setAllAddr (b : Body) : Statement (.setAllAddr b) := of_code _ 0x1C rfl rfl (by simp [Instr.tableMatch])
theorem startAutoMatch (b : Body) : Statement (.startAutoMatch b) := of_code _ 0x1D rfl rfl (by simp [Instr.tableMatch])
theorem stopAutoMatch (b : Body) : Statement (.stopAutoMatch b) := of_code _ 0x1E rfl rfl (by simp [Instr.tableMatch])
theorem resetToDfu (b : Body) : Statement (.resetToDfu b) := of_code _ 0x1F rfl rfl (by simp [Instr.tableMatch])
theorem rgb (b : Body) : Statement (.rgb b) := of_code _ 0x20 rfl rfl (by simp [Instr.tableMatch])
theorem getMachine (b : Body) : Statement (.getMachine b) := of_code _ 0x21 rfl rfl (by simp [Instr.tableMatch])
theorem heartbeat (b : Body) : Statement (.heartbeat b) := of_code _ 0x22 rfl rfl (by simp [Instr.tableMatch])
theorem err (b : Body) : Statement (.err b) := of_code _ 0x23 rfl rfl (by simp [Instr.tableMatch])
theorem opaquePacket (t : Byte) (b : Body) : Statement (.opaquePacket t b) := by
  rw [Statement, headerWord_encode]
  exact low16 _ _

end Sys2Proof.Laws.HeaderWord
end

