-- ==== Sys2Proof/Tests/Slice0.lean ====
section
/-!
SUPPORT. Tests: the well-formedness checks refuse an ill-formed term each, frames written out from the spec decode to their instruction and
give their event (expected results from 95_test_vectors.md, by vector number), and a witness for the hypotheses of every obligation.
-/

namespace Sys2Proof.Tests

open Sys2Proof.Machine

/-- The reset state with these operations pending. -/
def issue (ops : List Operation) : State := State.reset.withInbox ops

/-- What so many operations deliver from reset, and the buffer they leave. -/
def outcome (ops : List Operation) : Option (List Event × List Byte) :=
  match runSteps ops.length (issue ops) with
  | .next t => some (t.events, t.buf)
  | _ => none

/-- What one `DECODE` delivers from reset. -/
def direct (f : List Byte) : Option (List Event) := (outcome [.decode f]).map (·.1)

/-- `DECODE` under `EXCESS_PAYLOAD = ignore`. -/
def directIgnoring (f : List Byte) : Option (List Event) :=
  match step { issue [.decode f] with cfg := { Config.default with excess := .ignore } } with
  | .next t => some t.events
  | _ => none

/-- The set-voltage frame S1. -/
def setVFrame : List Byte := [0x5A, 0x5A, 0x1A, 0x0A, 0x00, 0x1D, 0xE4, 0x0C, 0xF4, 0x01]
/-- The heartbeat frame S2. -/
def heartbeatFrame : List Byte := [0x5A, 0x5A, 0x22, 0x06, 0xEE, 0x00]

/-! ## Well-formedness: one ill-formed term for each check -/

/-- Size byte 7 on a six-byte frame (30_encoding.md R61 (1)). -/
theorem test_wellFormed_refuses_size : (Instr.heartbeat ⟨7, 0xEE, 0, []⟩).wellFormed Config.default = false := by decide
/-- Checksum 1 on an empty payload (30_encoding.md R61 (2)). -/
theorem test_wellFormed_refuses_checksum : (Instr.heartbeat ⟨6, 0xEE, 1, []⟩).wellFormed Config.default = false := by decide
/-- The fallback row with the type byte of a named row (30_encoding.md R75). -/
theorem test_wellFormed_refuses_named_opaque : (Instr.opaquePacket 0x22 ⟨6, 0xEE, 0, []⟩).wellFormed Config.default = false := by decide
theorem test_wellFormed_accepts : (Instr.setV ⟨0x0A, 0, 0x1D, [0xE4, 0x0C, 0xF4, 0x01]⟩).wellFormed Config.default = true := by decide
/-- The conditions on a configuration, one violated at a time (70_reset_and_hazards.md R243 (1), decision D19). -/
theorem test_config_accepts_default : Config.default.wellFormed = true := by decide
theorem test_config_refuses_bound_zero : { Config.default with discardBound := 0 }.wellFormed = false := by decide
theorem test_config_refuses_code_out_of_range : { Config.default with typeMax := 0x22 }.wellFormed = false := by decide
theorem test_config_refuses_shared_code :
    { Config.default with typeCode := { TypeCodes.default with err := 0x22 } }.wellFormed = false := by decide
theorem test_config_refuses_late_cond :
    { Config.default with schema := { SchemaTable.default with
        machine := .cond .machineType (.literal 1) (.u8 .color .done) (.u8 .error .done) (.u8 .machineType .done) } }.wellFormed = false := by
  decide
/-- The reference may be an earlier byte run, or a field of either branch of an earlier `COND` (R243 (1): "a field that precedes it"). -/
theorem test_config_accepts_earlier_fields :
    { Config.default with schema := { SchemaTable.default with
        machine := .u8 .machineType (.bytes .color 1 (.cond .machineType (.literal 1) (.u8 .output .done) (.u8 .lock .done)
          (.cond .lock (.literal 1) (.u8 .error .done) (.u16 .error .done)
            (.cond .color (.literal 0) (.u8 .voltage .done) (.u8 .current .done) .done)))) } }.wellFormed = true := by
  decide
theorem test_config_refuses_long_branch :
    { Config.default with schema := { SchemaTable.default with
        machine := .u8 .machineType (.cond .machineType (.literal 1) .done (.u8 .error .done) .done) } }.wellFormed = false := by
  decide
theorem test_config_refuses_inner_rest :
    { Config.default with schema := { SchemaTable.default with rgb := .rest .payload (.u8 .error .done) } }.wellFormed = false := by decide

/-! ## Decoding: every constructor by a frame written out from the spec -/

/-- V-Y3. -/
theorem test_decode_synthesize : decode Config.default [0x5A, 0x5A, 0x11, 0x06, 0xEE, 0x00]
    = .ok (.synthesize ⟨0x06, 0xEE, 0x00, []⟩) := by rfl
/-- V-W3. -/
theorem test_decode_wave : decode Config.default [0x5A, 0x5A, 0x12, 0x06, 0x00, 0x00]
    = .ok (.wave ⟨0x06, 0x00, 0x00, []⟩) := by rfl
/-- an `ADDR` header, code 0x13 (30_encoding.md R64). -/
theorem test_decode_addr : decode Config.default [0x5A, 0x5A, 0x13, 0x06, 0xEE, 0x00]
    = .ok (.addr ⟨0x06, 0xEE, 0x00, []⟩) := by rfl
/-- V-U1. -/
theorem test_decode_updateCh : decode Config.default [0x5A, 0x5A, 0x14, 0x07, 0xEE, 0x03, 0x03]
    = .ok (.updateCh ⟨0x07, 0xEE, 0x03, [0x03]⟩) := by rfl
/-- V-M1. -/
theorem test_decode_machine : decode Config.default [0x5A, 0x5A, 0x15, 0x07, 0xEE, 0x10, 0x10]
    = .ok (.machine ⟨0x07, 0xEE, 0x10, [0x10]⟩) := by rfl
/-- V-C7. -/
theorem test_decode_setOutput : decode Config.default [0x5A, 0x5A, 0x16, 0x07, 0x02, 0x01, 0x01]
    = .ok (.setOutput ⟨0x07, 0x02, 0x01, [0x01]⟩) := by rfl
/-- V-C10. -/
theorem test_decode_getAddr : decode Config.default [0x5A, 0x5A, 0x17, 0x06, 0xEE, 0x00]
    = .ok (.getAddr ⟨0x06, 0xEE, 0x00, []⟩) := by rfl
/-- V-C5. -/
theorem test_decode_setAddr : decode Config.default [0x5A, 0x5A, 0x18, 0x0C, 0x02, 0x0B, 0x05, 0x04, 0x03, 0x02, 0x01, 0x0A]
    = .ok (.setAddr ⟨0x0C, 0x02, 0x0B, [0x05, 0x04, 0x03, 0x02, 0x01, 0x0A]⟩) := by rfl
/-- V-C8. -/
theorem test_decode_setCh : decode Config.default [0x5A, 0x5A, 0x19, 0x06, 0x04, 0x00]
    = .ok (.setCh ⟨0x06, 0x04, 0x00, []⟩) := by rfl
/-- S1. -/
theorem test_decode_setV : decode Config.default [0x5A, 0x5A, 0x1A, 0x0A, 0x00, 0x1D, 0xE4, 0x0C, 0xF4, 0x01]
    = .ok (.setV ⟨0x0A, 0x00, 0x1D, [0xE4, 0x0C, 0xF4, 0x01]⟩) := by rfl
/-- V-C3. -/
theorem test_decode_setI : decode Config.default [0x5A, 0x5A, 0x1B, 0x0A, 0x03, 0x03, 0xE0, 0x2E, 0xC4, 0x09]
    = .ok (.setI ⟨0x0A, 0x03, 0x03, [0xE0, 0x2E, 0xC4, 0x09]⟩) := by rfl
/-- a `SET_ALL_ADDR` header, code 0x1C (30_encoding.md R64). -/
theorem test_decode_setAllAddr : decode Config.default [0x5A, 0x5A, 0x1C, 0x06, 0xEE, 0x00]
    = .ok (.setAllAddr ⟨0x06, 0xEE, 0x00, []⟩) := by rfl
/-- V-C11. -/
theorem test_decode_startAutoMatch : decode Config.default [0x5A, 0x5A, 0x1D, 0x06, 0xEE, 0x00]
    = .ok (.startAutoMatch ⟨0x06, 0xEE, 0x00, []⟩) := by rfl
/-- V-C12. -/
theorem test_decode_stopAutoMatch : decode Config.default [0x5A, 0x5A, 0x1E, 0x06, 0xEE, 0x00]
    = .ok (.stopAutoMatch ⟨0x06, 0xEE, 0x00, []⟩) := by rfl
/-- V-C13. -/
theorem test_decode_resetToDfu : decode Config.default [0x5A, 0x5A, 0x1F, 0x06, 0xEE, 0x00]
    = .ok (.resetToDfu ⟨0x06, 0xEE, 0x00, []⟩) := by rfl
/-- V-C9. -/
theorem test_decode_rgb : decode Config.default [0x5A, 0x5A, 0x20, 0x07, 0xEE, 0x01, 0x01]
    = .ok (.rgb ⟨0x07, 0xEE, 0x01, [0x01]⟩) := by rfl
/-- V-C14. -/
theorem test_decode_getMachine : decode Config.default [0x5A, 0x5A, 0x21, 0x06, 0xEE, 0x00]
    = .ok (.getMachine ⟨0x06, 0xEE, 0x00, []⟩) := by rfl
/-- S2. -/
theorem test_decode_heartbeat : decode Config.default [0x5A, 0x5A, 0x22, 0x06, 0xEE, 0x00]
    = .ok (.heartbeat ⟨0x06, 0xEE, 0x00, []⟩) := by rfl
/-- V-E1. -/
theorem test_decode_err : decode Config.default [0x5A, 0x5A, 0x23, 0x06, 0xEE, 0x00]
    = .ok (.err ⟨0x06, 0xEE, 0x00, []⟩) := by rfl
/-- V-D1. -/
theorem test_decode_opaquePacket : decode Config.default [0x5A, 0x5A, 0x77, 0x09, 0xEE, 0x00, 0x01, 0x02, 0x03]
    = .ok (.opaquePacket 0x77 ⟨0x09, 0xEE, 0x00, [0x01, 0x02, 0x03]⟩) := by rfl
theorem test_decode_refuses_magic : decode Config.default [0x5B, 0x5A, 0x22, 0x06, 0xEE, 0x00] = .error .magic := by rfl
theorem test_decode_refuses_short : decode Config.default [0x5A, 0x5A, 0x22, 0x04] = .error .size := by rfl
/-- The row `SET_V` of opcode_table.json, its header word with size 10. -/
theorem test_decodeTableWord : decodeTableWord 32 0x0A1A5A5A = some (.setV ⟨0x0A, 0, 0, [0, 0, 0, 0]⟩) := by decide
/-- A table word is run by the very next step; size byte 0 is a size failure of that instruction. -/
theorem test_withFetchWord : step (State.reset.withFetchWord 32 0x06225A5A) = .next (State.reset.emit (.record (.heartbeat 0))) := by rfl

/-! ## One step per instruction -/

/-- V-Y3. -/
theorem test_synthesize_empty :
    direct [0x5A, 0x5A, 0x11, 0x06, 0xEE, 0x00]
      = some [.fail .layout] := by decide
/-- V-W3. -/
theorem test_wave_size_6 :
    direct [0x5A, 0x5A, 0x12, 0x06, 0x00, 0x00]
      = some [.fail .layout] := by decide
/-- V-U1. -/
theorem test_updateCh :
    direct [0x5A, 0x5A, 0x14, 0x07, 0xEE, 0x03, 0x03]
      = some [.record (.updateCh 0xEE [3])] := by decide
/-- V-M1. -/
theorem test_machine_display :
    direct [0x5A, 0x5A, 0x15, 0x07, 0xEE, 0x10, 0x10]
      = some [.record (.machine 0xEE 0x10 .withDisplay true)] := by decide
/-- V-M2. -/
theorem test_machine_plain :
    direct [0x5A, 0x5A, 0x15, 0x07, 0xEE, 0x11, 0x11]
      = some [.record (.machine 0xEE 0x11 .plain false)] := by decide
/-- V-C7. -/
theorem test_setOutput :
    direct [0x5A, 0x5A, 0x16, 0x07, 0x02, 0x01, 0x01]
      = some [.record (.setOutput 2 [1])] := by decide
/-- V-C10. -/
theorem test_getAddr :
    direct [0x5A, 0x5A, 0x17, 0x06, 0xEE, 0x00]
      = some [.record (.getAddr 0xEE [])] := by decide
/-- V-C5. -/
theorem test_setAddr :
    direct [0x5A, 0x5A, 0x18, 0x0C, 0x02, 0x0B, 0x05, 0x04, 0x03, 0x02, 0x01, 0x0A]
      = some [.record (.setAddr 2 ⟨[5, 4, 3, 2, 1], 10, 2410, false⟩)] := by decide
/-- V-C8. -/
theorem test_setCh :
    direct [0x5A, 0x5A, 0x19, 0x06, 0x04, 0x00]
      = some [.record (.setCh 4 [])] := by decide
/-- V-C1, the source example S1. -/
theorem test_setV :
    direct [0x5A, 0x5A, 0x1A, 0x0A, 0x00, 0x1D, 0xE4, 0x0C, 0xF4, 0x01]
      = some [.record (.setV 0 3300 ⟨33, 10⟩ 500 ⟨1, 2⟩)] := by decide
/-- V-C4. -/
theorem test_setV_short :
    direct [0x5A, 0x5A, 0x1A, 0x08, 0x00, 0xE8, 0xE4, 0x0C]
      = some [.fail .layout] := by decide
/-- V-C3. -/
theorem test_setI :
    direct [0x5A, 0x5A, 0x1B, 0x0A, 0x03, 0x03, 0xE0, 0x2E, 0xC4, 0x09]
      = some [.record (.setI 3 12000 ⟨12, 1⟩ 2500 ⟨5, 2⟩)] := by decide
/-- V-C11. -/
theorem test_startAutoMatch :
    direct [0x5A, 0x5A, 0x1D, 0x06, 0xEE, 0x00]
      = some [.record (.startAutoMatch 0xEE [])] := by decide
/-- V-C12. -/
theorem test_stopAutoMatch :
    direct [0x5A, 0x5A, 0x1E, 0x06, 0xEE, 0x00]
      = some [.record (.stopAutoMatch 0xEE [])] := by decide
/-- V-C13. -/
theorem test_resetToDfu :
    direct [0x5A, 0x5A, 0x1F, 0x06, 0xEE, 0x00]
      = some [.record (.resetToDfu 0xEE [])] := by decide
/-- V-C9. -/
theorem test_rgb :
    direct [0x5A, 0x5A, 0x20, 0x07, 0xEE, 0x01, 0x01]
      = some [.record (.rgb 0xEE [1])] := by decide
/-- V-C14. -/
theorem test_getMachine :
    direct [0x5A, 0x5A, 0x21, 0x06, 0xEE, 0x00]
      = some [.record (.getMachine 0xEE [])] := by decide
/-- V-C16. -/
theorem test_heartbeat_excess :
    direct [0x5A, 0x5A, 0x22, 0x07, 0xEE, 0x00, 0x00]
      = some [.fail .layout] := by decide
/-- V-C16 under `ignore`. -/
theorem test_heartbeat_ignore :
    directIgnoring [0x5A, 0x5A, 0x22, 0x07, 0xEE, 0x00, 0x00]
      = some [.record (.heartbeat 0xEE)] := by decide
/-- V-E1. -/
theorem test_err :
    direct [0x5A, 0x5A, 0x23, 0x06, 0xEE, 0x00]
      = some [.record (.err 0xEE [])] := by decide
/-- V-D1. -/
theorem test_opaque :
    direct [0x5A, 0x5A, 0x77, 0x09, 0xEE, 0x00, 0x01, 0x02, 0x03]
      = some [.record (.opaquePacket 0x77 0xEE [1, 2, 3])] := by decide

/-- The payload of V-A1. -/
def addrPayload : List Byte :=
  [1, 2, 3, 4, 5, 0x0A] ++ [0, 0, 0, 0, 0, 5] ++ List.replicate 18 0 ++ [0, 0, 0, 0, 1, 0xFF]
/-- The payload of V-C6. -/
def allAddrPayload : List Byte := [5, 4, 3, 2, 1, 0x0A] ++ [0, 0, 0, 0, 0, 5] ++ List.replicate 24 0
/-- The payload of V-Y1. -/
def synthesizePayload : List Byte :=
  [0x01, 0x02, 0x01, 0x00, 0x02, 0x88, 0x13, 0xE8, 0x03, 0xE0, 0x2E, 0xF4, 0x01, 0x88, 0x13, 0xDC, 0x05, 0xFD, 0x00, 0x11, 0x22, 0x33, 0x00] ++
  [0x02, 0x03, 0x00, 0x02, 0x01, 0x00, 0x00, 0x00, 0x00, 0xE4, 0x0C, 0xFA, 0x00, 0x00, 0x00, 0xFA, 0x00, 0xFF, 0xFF, 0x00, 0x00, 0x00, 0x05] ++
  List.replicate 92 0
/-- The fourth, zero-filled slot of V-Y1. -/
def emptySlot : SynthSlot :=
  ⟨0, false, 0, 0, false, 0, false, .psu 0, 0, ⟨0, 1⟩, 0, ⟨0, 1⟩, 0, ⟨0, 1⟩, 0, ⟨0, 1⟩, 0, ⟨0, 1⟩, 0, ⟨0, 1⟩, 0, ⟨0, 1⟩, [0, 0, 0], 0⟩
/-- A wave payload of `n` items a group whose group `g` has timestamp bytes `g, 1, 2, 3` and items of voltage `g`, current `256`. -/
def wavePayload (n : Nat) : List Byte :=
  ((List.range 10).map fun g => [BitVec.ofNat 8 g, 1, 2, 3] ++ (List.replicate n [BitVec.ofNat 8 g, 0, 0, 1]).flatten).flatten

/-- V-A1. -/
theorem test_addr :
    direct ([0x5A, 0x5A, 0x13, 0x2A, 0xEE, 0xF0] ++ addrPayload)
      = some [.record (.addr 0xEE [⟨[5, 4, 3, 2, 1], 10, 2410, false⟩, ⟨[0, 0, 0, 0, 0], 5, 2405, true⟩, ⟨[0, 0, 0, 0, 0], 0, 2400, true⟩,
          ⟨[0, 0, 0, 0, 0], 0, 2400, true⟩, ⟨[0, 0, 0, 0, 0], 0, 2400, true⟩, ⟨[1, 0, 0, 0, 0], 255, 2655, false⟩])] := by decide
/-- V-C6. -/
theorem test_setAllAddr :
    direct ([0x5A, 0x5A, 0x1C, 0x2A, 0xEE, 0x0E] ++ allAddrPayload)
      = some [.record (.setAllAddr 0xEE [⟨[5, 4, 3, 2, 1], 10, 2410, false⟩, ⟨[0, 0, 0, 0, 0], 5, 2405, true⟩, ⟨[0, 0, 0, 0, 0], 0, 2400, true⟩,
          ⟨[0, 0, 0, 0, 0], 0, 2400, true⟩, ⟨[0, 0, 0, 0, 0], 0, 2400, true⟩, ⟨[0, 0, 0, 0, 0], 0, 2400, true⟩])] := by decide
/-- V-Y1. -/
theorem test_synthesize :
    direct ([0x5A, 0x5A, 0x11, 0x90, 0xEE, 0x1B] ++ synthesizePayload)
      = some [.record (.synthesize 0xEE
          [⟨1, true, 2, 1, true, 0, false, .psu 2, 5000, ⟨5, 1⟩, 1000, ⟨1, 1⟩, 12000, ⟨12, 1⟩, 500, ⟨1, 2⟩, 5000, ⟨5, 1⟩, 1500, ⟨3, 2⟩,
              253, ⟨253, 10⟩, [0x11, 0x22, 0x33], 0⟩,
           ⟨2, true, 3, 0, false, 2, false, .load 1, 0, ⟨0, 1⟩, 0, ⟨0, 1⟩, 3300, ⟨33, 10⟩, 250, ⟨1, 4⟩, 0, ⟨0, 1⟩, 250, ⟨1, 4⟩,
              65535, ⟨13107, 2⟩, [0, 0, 0], 5⟩,
           emptySlot, emptySlot, emptySlot, emptySlot])] := by decide +kernel
/-- two groups of the size-126 layout of 42_reports.md R151, 32-bit little-endian timestamps (20_memory.md R40). -/
theorem test_wave :
    ((direct (makeFrame 0x12 0 (wavePayload 2))).bind List.head?).bind (fun e => match e with
      | .record (.wave ch n groups) => some (ch, n, groups.length, groups.take 2)
      | _ => none)
      = some (0, 2, 10, [⟨0x03020100, [⟨0, ⟨0, 1⟩, 256, ⟨32, 125⟩⟩, ⟨0, ⟨0, 1⟩, 256, ⟨32, 125⟩⟩]⟩,
          ⟨0x03020101, [⟨1, ⟨1, 1000⟩, 256, ⟨32, 125⟩⟩, ⟨1, ⟨1, 1000⟩, 256, ⟨32, 125⟩⟩]⟩]) := by decide +kernel

/-! ## Validation and the stream -/

/-- V-K1. -/
theorem test_empty_sequence :
    direct []
      = some [.fail .magic] := by decide
/-- V-K3. -/
theorem test_corrupted :
    direct [0x5A, 0x5A, 0x1A, 0x0A, 0x00, 0x1D, 0xE4, 0x0D, 0xF4, 0x01]
      = some [.fail .checksum] := by decide
/-- V-K5. -/
theorem test_size_mismatch :
    direct [0x5A, 0x5A, 0x22, 0x06, 0xEE, 0x00, 0x00]
      = some [.fail .size] := by decide
/-- V-K8. -/
theorem test_checksum_before_layout :
    direct [0x5A, 0x5A, 0x11, 0x0C, 0x00, 0x00, 0x5A, 0x5A, 0x22, 0x06, 0xEE, 0x00]
      = some [.fail .checksum] := by decide
/-- 30_encoding.md R68: a field that is no number does not equal the value, so the second descriptor is read. -/
theorem test_cond_byte_run : refEquals Config.default [] 6 [(.color, .bytes [3])] .color 3 = false := by rfl
/-- A configured row of five entries: the record has the six of 43_commands.md R176, five as the frame gives them. -/
theorem test_setAllAddr_five_entries :
    ((match exec (.setAllAddr (Body.ofPayload 0xEE (allAddrPayload.take 30))) { State.reset with cfg := { Config.default with
        schema := { SchemaTable.default with setAllAddr := .rep .entries 5 Schema.entryNatural .done } } } with
      | .next t => t.events.head?.bind fun e => match e with
        | .record (.setAllAddr ch es) => some (ch, es.length, es.take 2)
        | _ => none
      | _ => none) : Option (Byte × Nat × List AddrEntry))
      = some (0xEE, 6, [⟨[5, 4, 3, 2, 1], 10, 2410, false⟩, ⟨[0, 0, 0, 0, 0], 5, 2405, true⟩]) := by decide +kernel
/-- V-D4. -/
theorem test_implausible_type :
    outcome [.append [0x5A, 0x5A, 0x10, 0x06, 0x02, 0x00]]
      = some ([], [0x5A, 0x10, 0x06, 0x02, 0x00]) := by decide
/-- V-S1. -/
theorem test_lone_magic_byte :
    outcome [.append ([0x00, 0xFF, 0x5A, 0x13] ++ heartbeatFrame)]
      = some ([.record (.heartbeat 0xEE)], []) := by decide
/-- V-S5. -/
theorem test_run_of_magic_bytes :
    outcome [.append ([0x5A, 0x5A] ++ heartbeatFrame)]
      = some ([.record (.heartbeat 0xEE)], []) := by decide
/-- V-S4. -/
theorem test_size_five :
    outcome [.append ([0x5A, 0x5A, 0x11, 0x05] ++ heartbeatFrame)]
      = some ([.record (.heartbeat 0xEE)], []) := by decide
/-- V-S9. -/
theorem test_swallowed_frame :
    outcome [.append ([0x5A, 0x5A, 0x11, 0x0C, 0x00, 0x00] ++ heartbeatFrame ++ heartbeatFrame)]
      = some ([.fail .checksum, .record (.heartbeat 0xEE)], []) := by decide
/-- P1 (b). -/
theorem test_three_chunks :
    outcome [.append (setVFrame.take 3), .append (setVFrame.drop 3 ++ [0x5A, 0x5A]), .append [0x22, 0x06, 0xEE, 0x00]]
      = some ([.record (.setV 0 3300 ⟨33, 10⟩ 500 ⟨1, 2⟩), .record (.heartbeat 0xEE)], []) := by decide
/-- P2 (a). -/
theorem test_noise_and_corruption :
    outcome [.append ([0x00, 0xFF, 0x5A, 0x13, 0x5A, 0x5A, 0x99, 0x10] ++ setVFrame ++
        [0x5A, 0x5A, 0x1B, 0x0A, 0x03, 0x04, 0xE0, 0x2E, 0xC4, 0x09] ++ heartbeatFrame)]
      = some ([.record (.setV 0 3300 ⟨33, 10⟩ 500 ⟨1, 2⟩), .fail .checksum, .record (.heartbeat 0xEE)], []) := by decide
/-- P4 (a). -/
theorem test_stale_bytes :
    outcome [.append [0x5A, 0x5A, 0x1A, 0x0A, 0x00], .append heartbeatFrame, .append heartbeatFrame]
      = some ([.fail .checksum, .record (.heartbeat 0xEE)], []) := by decide
/-- P5. -/
theorem test_direct_beside_stream :
    outcome [.append [0x5A, 0x5A, 0x22], .decode [0x5A, 0x5A, 0x77, 0x09, 0xEE, 0x00, 0x01, 0x02, 0x03],
        .decode [0x5A, 0x5A, 0x22, 0x06, 0xEE, 0x01], .append [0x06, 0xEE, 0x00]]
      = some ([.record (.opaquePacket 0x77 0xEE [1, 2, 3]), .fail .checksum, .record (.heartbeat 0xEE)], []) := by decide
/-- R101. -/
theorem test_clear_drops_pending :
    outcome [.append [0x5A, 0x5A, 0x22], .clear, .push 0x06]
      = some ([], [0x06]) := by decide
/-- R94: the bound is strict. With `DISCARD_BOUND = 2`, two bytes stay and three go. -/
theorem test_discard_bound :
    (pass { Config.default with discardBound := 2 } [0xAA, 0xAA], pass { Config.default with discardBound := 2 } [0xAA, 0xAA, 0x5A])
      = (.stop [0xAA, 0xAA], .stop []) := by decide
/-- The source example S1 from the encoder's side (44_encoder_boundary.md R203). -/
theorem test_encoder_setV :
    encodeFields Config.default .setV 0 [(.voltage, .nat 3300), (.current, .nat 500)] = .ok setVFrame := by rfl
/-- The byte order of the source example S3 (44_encoder_boundary.md R204). -/
theorem test_encoder_setAddr :
    encodeIntent Config.default (.setAddr [5, 4, 3, 2, 1] 10 2) = .ok [0x5A, 0x5A, 0x18, 0x0C, 0x02, 0x0B, 5, 4, 3, 2, 1, 10] := by rfl
theorem test_encoder_heartbeat : encodeIntent Config.default .heartbeat = .ok heartbeatFrame := by rfl

/-- The source example S1 whole: 3.3 V, 0.5 A on channel 0 (95_test_vectors.md S1). -/
theorem test_encoder_S1 :
    encodeIntent Config.default (.setV ⟨33, 10, by decide, by decide⟩ ⟨1, 2, by decide, by decide⟩ 0) = .ok setVFrame := by rfl

/-! ## Witnesses: concrete cases that meet the hypotheses of each obligation, every clause of it -/

/-- The instruction of S1. -/
def setVInstr : Instr := .setV ⟨0x0A, 0x00, 0x1D, [0xE4, 0x0C, 0xF4, 0x01]⟩
/-- A state with these operations pending and these bytes in the buffer. -/
def holding (buf : List Byte) (ops : List Operation) : State := (issue ops).withBuf buf
/-- `holding` with `DISCARD_BOUND = 2`. -/
def tight (buf : List Byte) (ops : List Operation) : State :=
  { holding buf ops with cfg := { Config.default with discardBound := 2 } }

theorem heartbeat_candidate : CandidateFrame Config.default heartbeatFrame :=
  ⟨0x22, 0x06, ⟨⟨rfl, rfl⟩, rfl, rfl, by decide, by decide, by decide, by decide⟩, rfl⟩
theorem setV_candidate : CandidateFrame Config.default setVFrame :=
  ⟨0x1A, 0x0A, ⟨⟨rfl, rfl⟩, rfl, rfl, by decide, by decide, by decide, by decide⟩, rfl⟩
theorem partial_quiescent : Quiescent Config.default (setVFrame.take 5) :=
  .partialFrame 0x1A 0x0A ⟨⟨rfl, rfl⟩, rfl, rfl, by decide, by decide, by decide, by decide⟩ (by decide) (by decide)
theorem holding_inv (ops : List Operation) : Inv (holding (setVFrame.take 5) ops) := ⟨show Config.default.wellFormed = true by decide, partial_quiescent⟩

theorem witness_DecodeAfterEncodeIsIdentity :
    Config.default.typeCode.injective = true ∧ setVInstr.typeOk Config.default = true ∧
      (Instr.opaquePacket 0x77 ⟨0x09, 0xEE, 0, [1, 2, 3]⟩).typeOk Config.default = true := by decide
theorem witness_EncodeAfterDecodeIsIdentity : decode Config.default setVFrame = .ok setVInstr := by rfl
/-- The longest payload, and an empty one. -/
theorem witness_BuiltFramesAreWellFormed :
    Config.default.typeCode.injective = true ∧ (List.replicate 249 (0 : Byte)).length ≤ 249 ∧ ([] : List Byte).length ≤ 249 := by decide +kernel
theorem witness_TypeByteSelectsTheInstruction : decode Config.default setVFrame = .ok setVInstr := by rfl
/-- Too short, and a wrong second byte. -/
theorem witness_FramesWithoutMagicFail :
    ((issue [.decode [0x5A]]).cfg.wellFormed = true ∧ (issue [.decode [0x5A]]).inbox = .decode [0x5A] :: [] ∧ ¬ StartsWithMagic [0x5A]) ∧
    ¬ StartsWithMagic [0x5A, 0x5B, 0x22, 0x06, 0xEE, 0x00] :=
  ⟨⟨by decide, rfl, fun h => by simp [StartsWithMagic] at h⟩, fun h => by revert h; simp [StartsWithMagic, magicByte]⟩
/-- V-K6, four bytes; V-K4 and V-K5, one byte too few and one too many. -/
theorem witness_FramesOfWrongSizeFail :
    ((issue [.decode [0x5A, 0x5A, 0x22, 0x04]]).cfg.wellFormed = true ∧ StartsWithMagic [0x5A, 0x5A, 0x22, 0x04] ∧
      [0x5A, 0x5A, 0x22, (0x04 : Byte)].length < 6) ∧
    (StartsWithMagic [0x5A, 0x5A, 0x22, 0x07, 0xEE, 0x00] ∧ (byteAt [0x5A, 0x5A, 0x22, 0x07, 0xEE, 0x00] 3).toNat ≠ 6) ∧
    (StartsWithMagic [0x5A, 0x5A, 0x22, 0x06, 0xEE, 0x00, 0x00] ∧ (byteAt [0x5A, 0x5A, 0x22, 0x06, 0xEE, 0x00, 0x00] 3).toNat ≠ 7) :=
  ⟨⟨by decide, ⟨rfl, rfl⟩, by decide⟩, ⟨⟨rfl, rfl⟩, by decide⟩, ⟨⟨rfl, rfl⟩, by decide⟩⟩
/-- V-K7 and S2. -/
theorem witness_ChecksumDecidesChecksumFailure :
    (StartsWithMagic [0x5A, 0x5A, 0x22, 0x06, 0xEE, 0x01] ∧ (byteAt [0x5A, 0x5A, 0x22, 0x06, 0xEE, 0x01] 3).toNat = 6 ∧
      xorReduce ([0x5A, 0x5A, 0x22, 0x06, 0xEE, 0x01].drop 6) ≠ byteAt [0x5A, 0x5A, 0x22, 0x06, 0xEE, 0x01] 5) ∧
    ((issue [.decode heartbeatFrame]).cfg.wellFormed = true ∧ StartsWithMagic heartbeatFrame ∧ 6 ≤ heartbeatFrame.length ∧
      (byteAt heartbeatFrame 3).toNat = heartbeatFrame.length ∧ xorReduce (heartbeatFrame.drop 6) = byteAt heartbeatFrame 5) :=
  ⟨⟨⟨rfl, rfl⟩, by decide, by decide⟩, by decide, ⟨rfl, rfl⟩, by decide, by decide, by decide⟩
theorem witness_DirectDecodeFollowsThePseudocode :
    (issue [.decode heartbeatFrame]).cfg.wellFormed = true ∧ (issue [.decode heartbeatFrame]).inbox = .decode heartbeatFrame :: [] := by decide
/-- The checksum byte, and the last payload byte; bits 0 to 7. -/
theorem witness_SingleBitFlipsFailTheChecksum :
    decode State.reset.cfg setVFrame = .ok setVInstr ∧ setVInstr.body.wellFormed = true ∧
      (5 ≤ 5 ∧ 5 < setVFrame.length) ∧ (5 ≤ 9 ∧ 9 < setVFrame.length) ∧ 7 < 8 :=
  ⟨by rfl, by decide, by decide, by decide, by decide⟩
/-- V-K9: bit 7 of payload bytes 6 and 9. -/
theorem witness_PairedFlipsStayUndetected :
    decode Config.default setVFrame = .ok setVInstr ∧ setVInstr.body.wellFormed = true ∧
      6 ≤ 6 ∧ 6 < 9 ∧ 9 < setVFrame.length ∧ 7 < 8 := ⟨by rfl, by decide, by decide, by decide, by decide, by decide⟩
/-- A frame that decodes, and one (V-K6) that does not. -/
theorem witness_DirectStepRunsTheDecodedInstruction :
    ((issue [.decode setVFrame]).cfg.wellFormed = true ∧ (issue [.decode setVFrame]).inbox = .decode setVFrame :: [] ∧
      decode (issue [.decode setVFrame]).cfg setVFrame = .ok setVInstr) ∧
    decode (issue [.decode [0x5A, 0x5A, 0x22, 0x04]]).cfg [0x5A, 0x5A, 0x22, 0x04] = .error .size :=
  ⟨⟨by decide, rfl, by rfl⟩, by rfl⟩
/-- The second half of a frame whose first half is pending. -/
theorem witness_StreamStepRunsTheDecodedInstruction :
    (holding (setVFrame.take 5) [.append (setVFrame.drop 5)]).cfg.wellFormed = true ∧
    (holding (setVFrame.take 5) [.append (setVFrame.drop 5)]).inbox = .append (setVFrame.drop 5) :: [] ∧
    CandidateFrame Config.default (setVFrame.take 5 ++ setVFrame.drop 5) := ⟨by decide, rfl, setV_candidate⟩

/-- A well-formed body with the given payload. -/
theorem witness_SynthesizeDecodesSixSlots :
    State.reset.cfg.schema.synthesize = Schema.synthesize ∧ (Body.ofPayload 0xEE synthesizePayload).wellFormed = true ∧
      (Body.ofPayload 0xEE synthesizePayload).payload.length = 138 := by decide +kernel
theorem witness_WaveDecodesTenGroups :
    State.reset.cfg.schema.wave = Schema.wave ∧
    ((Body.ofPayload 0 (wavePayload 2)).wellFormed = true ∧ (Body.ofPayload 0 (wavePayload 2)).size.toNat = 126) ∧
    ((Body.ofPayload 0 (wavePayload 4)).wellFormed = true ∧ (Body.ofPayload 0 (wavePayload 4)).size.toNat = 206) := by decide +kernel
/-- V-W3: size 130, and the empty payload. -/
theorem witness_WaveOfOtherSizeFails :
    State.reset.cfg.schema.wave = Schema.wave ∧
    ((Body.ofPayload 0 (List.replicate 124 0)).wellFormed = true ∧ (Body.ofPayload 0 (List.replicate 124 0)).size.toNat ≠ 126 ∧
      (Body.ofPayload 0 (List.replicate 124 0)).size.toNat ≠ 206) ∧
    (Body.ofPayload 0 []).wellFormed = true ∧ (Body.ofPayload 0 []).size.toNat ≠ 126 := by decide +kernel
theorem witness_AddrReportReversesAddressBytes :
    State.reset.cfg.schema.addr = Schema.addr ∧ (Body.ofPayload 0xEE addrPayload).wellFormed = true ∧
      (Body.ofPayload 0xEE addrPayload).payload.length = 36 := by decide +kernel
theorem witness_AddressCommandsKeepByteOrder :
    (State.reset.cfg.schema.setAddr = Schema.entryNatural ∧ (Body.ofPayload 2 [5, 4, 3, 2, 1, 10]).wellFormed = true ∧
      (Body.ofPayload 2 [5, 4, 3, 2, 1, 10]).payload.length = 6) ∧
    (State.reset.cfg.schema.setAllAddr = Schema.setAllAddr ∧ (Body.ofPayload 0xEE allAddrPayload).wellFormed = true ∧
      (Body.ofPayload 0xEE allAddrPayload).payload.length = 36) := by decide +kernel
theorem witness_VoltageAndCurrentCommandsDecode :
    (State.reset.cfg.schema.setV = Schema.voltageCurrent ∧ State.reset.cfg.schema.setI = Schema.voltageCurrent) ∧
      (Body.ofPayload 0 [0xE4, 0x0C, 0xF4, 0x01]).wellFormed = true ∧ (Body.ofPayload 0 [0xE4, 0x0C, 0xF4, 0x01]).payload.length = 4 := by
  decide
/-- Both variants. -/
theorem witness_MachineDecodesVariant :
    State.reset.cfg.schema.machine = Schema.machine ∧
    ((Body.ofPayload 0xEE [0x10]).wellFormed = true ∧ (Body.ofPayload 0xEE [0x10]).payload = [0x10]) ∧
    ((Body.ofPayload 0xEE [0x11]).wellFormed = true ∧ (Body.ofPayload 0xEE [0x11]).payload = [0x11]) := by decide
theorem witness_HeartbeatDecodes :
    State.reset.cfg.schema.heartbeat = .done ∧ (Body.ofPayload 0xEE []).wellFormed = true ∧ (Body.ofPayload 0xEE []).payload = [] := by decide
theorem witness_RawPayloadTypesPassThrough :
    (Body.ofPayload 2 [1, 2]).wellFormed = true ∧ (State.reset.cfg.schema.updateCh = Schema.restPayload ∧
      State.reset.cfg.schema.setOutput = Schema.restPayload ∧ State.reset.cfg.schema.getAddr = Schema.restPayload ∧
      State.reset.cfg.schema.setCh = Schema.restPayload ∧ State.reset.cfg.schema.startAutoMatch = Schema.restPayload ∧
      State.reset.cfg.schema.stopAutoMatch = Schema.restPayload ∧ State.reset.cfg.schema.resetToDfu = Schema.restPayload ∧
      State.reset.cfg.schema.rgb = Schema.restPayload ∧ State.reset.cfg.schema.getMachine = Schema.restPayload ∧
      State.reset.cfg.schema.err = Schema.restPayload) := by decide
/-- V-D1, and the codes next to the named ones (V-D2, V-D3). -/
theorem witness_UnknownTypesPassThrough :
    (Body.ofPayload 0xEE [1, 2, 3]).wellFormed = true ∧
    (StartsWithMagic [0x5A, 0x5A, 0x24, 0x07, 0xEE, 0x55, 0x55] ∧
      xorReduce ([0x5A, 0x5A, 0x24, 0x07, 0xEE, 0x55, 0x55].drop 6) = byteAt [0x5A, 0x5A, 0x24, 0x07, 0xEE, 0x55, 0x55] 5 ∧
      State.reset.cfg.typeCode.typeOf? 0x24 = none) ∧
    State.reset.cfg.typeCode.typeOf? 0x10 = none := ⟨by decide, ⟨⟨rfl, rfl⟩, by decide, by decide⟩, by decide⟩
/-- `SET_V` at its legal size, and one byte below and above it. -/
theorem witness_LegalSizesDecideTheLayout :
    (State.reset.cfg.schema = SchemaTable.default ∧ State.reset.cfg.excess = .reject) ∧
    ((Body.ofPayload 0 [0, 0, 0, 0]).wellFormed = true ∧ legalSize .setV (Body.ofPayload 0 [0, 0, 0, 0]).size.toNat = true) ∧
    ((Body.ofPayload 0 [0, 0, 0]).wellFormed = true ∧ legalSize .setV (Body.ofPayload 0 [0, 0, 0]).size.toNat = false) ∧
    ((Body.ofPayload 0 [0, 0, 0, 0, 0]).wellFormed = true ∧ legalSize .setV (Body.ofPayload 0 [0, 0, 0, 0, 0]).size.toNat = false) := by
  decide
/-- Payloads at, above and below the rows' lengths 138, 36, 1, 4 and 6. -/
theorem witness_IgnorePolicyLeavesExcessOut :
    ({ State.reset with cfg := { Config.default with excess := .ignore } }.cfg.schema = SchemaTable.default ∧
      { State.reset with cfg := { Config.default with excess := .ignore } }.cfg.excess = .ignore) ∧
    [0, 1, 3, 4, 5, 6, 7, 35, 36, 37, 137, 138, 139].all (fun n =>
      (Body.ofPayload 0 (List.replicate n 1)).wellFormed && (Body.ofPayload 0 (List.replicate n 1)).payload.length == n) = true := by
  decide +kernel
theorem witness_InstructionsChangeOnlyTheOutput : ∃ t, exec setVInstr (holding [0x5A] [.clear]) = .next t := ⟨_, rfl⟩

theorem witness_ClearEmptiesTheBuffer :
    (holding [0x5A] [.clear]).cfg.wellFormed = true ∧ (holding [0x5A] [.clear]).inbox = .clear :: [] := by decide
theorem witness_ResetEmptiesTheBuffer :
    (holding [0x5A] [.reset]).cfg.wellFormed = true ∧ (holding [0x5A] [.reset]).inbox = .reset :: [] := by decide
/-- At the bound and one byte above it, `DISCARD_BOUND = 2`. -/
theorem witness_MagicFreeBuffersAreKeptOrDiscarded :
    ((tight [0xAA] [.append [0x5A]]).cfg.wellFormed = true ∧ (tight [0xAA] [.append [0x5A]]).inbox = .append [0x5A] :: [] ∧
      NoMagic ([0xAA] ++ [0x5A])) ∧
    ((tight [0xAA] [.append [0x5A, 0x11]]).cfg.wellFormed = true ∧ NoMagic ([0xAA] ++ [0x5A, 0x11])) :=
  ⟨⟨by decide, rfl, (findMagic_eq_none_iff _).mp (by decide)⟩, by decide, (findMagic_eq_none_iff _).mp (by decide)⟩
/-- V-S1: four bytes, a lone magic byte among them; and no garbage at all. -/
theorem witness_LeadingGarbageIsDropped :
    ((holding ([0x00, 0xFF, 0x5A, 0x13] ++ heartbeatFrame) []).buf = [0x00, 0xFF, 0x5A, 0x13] ++ heartbeatFrame ∧
      StartsWithMagic heartbeatFrame ∧
      ∀ k, k < [0x00, 0xFF, 0x5A, (0x13 : Byte)].length →
        ¬ (([0x00, 0xFF, 0x5A, 0x13] ++ heartbeatFrame)[k]? = some magicByte ∧
          ([0x00, 0xFF, 0x5A, 0x13] ++ heartbeatFrame)[k + 1]? = some magicByte)) ∧
    (holding ([] ++ heartbeatFrame) []).buf = [] ++ heartbeatFrame :=
  ⟨⟨rfl, ⟨rfl, rfl⟩, by decide⟩, rfl⟩
/-- No plausible header in a buffer whose third byte is a type below the range, or whose fourth a size below six. -/
theorem implausible_type (t size : Byte) : ¬ PlausibleHeader Config.default [0x5A, 0x5A, 0x10, 0x06] t size := by
  rintro ⟨-, h1, -, h2, -⟩
  cases h1
  revert h2
  decide
theorem implausible_size (t size : Byte) : ¬ PlausibleHeader Config.default [0x5A, 0x5A, 0x11, 0x05] t size := by
  rintro ⟨-, -, h1, -, -, h2, -⟩
  cases h1
  revert h2
  decide
/-- Three bytes; an implausible type and size; the first and the last plausible type; a partial frame and a whole one. -/
theorem witness_HeaderStepsFollowTheAlgorithm :
    (StartsWithMagic [0x5A, 0x5A, 0x22] ∧ [0x5A, 0x5A, (0x22 : Byte)].length < 4) ∧
    (StartsWithMagic [0x5A, 0x5A, 0x10, 0x06] ∧ ∀ t size, ¬ PlausibleHeader Config.default [0x5A, 0x5A, 0x10, 0x06] t size) ∧
    (StartsWithMagic [0x5A, 0x5A, 0x11, 0x05] ∧ ∀ t size, ¬ PlausibleHeader Config.default [0x5A, 0x5A, 0x11, 0x05] t size) ∧
    (PlausibleHeader Config.default [0x5A, 0x5A, 0x11, 0x06, 0] 0x11 0x06 ∧ [0x5A, 0x5A, 0x11, 0x06, (0 : Byte)].length < 6) ∧
    (PlausibleHeader Config.default [0x5A, 0x5A, 0x23, 0x06, 0, 0] 0x23 0x06 ∧
      6 ≤ [0x5A, 0x5A, 0x23, 0x06, 0, (0 : Byte)].length) :=
  ⟨⟨⟨rfl, rfl⟩, by decide⟩, ⟨⟨rfl, rfl⟩, implausible_type⟩, ⟨⟨rfl, rfl⟩, implausible_size⟩,
    ⟨⟨⟨rfl, rfl⟩, rfl, rfl, by decide, by decide, by decide, by decide⟩, by decide⟩,
    ⟨⟨rfl, rfl⟩, rfl, rfl, by decide, by decide, by decide, by decide⟩, by decide⟩
theorem witness_ProcessEndsWithinItsPassBound : (holding heartbeatFrame []).buf.length + 1 ≤ 7 := by decide
/-- V-S0b. -/
theorem witness_EmptyAppendIsNoOp :
    Inv (holding (setVFrame.take 5) [.append []]) ∧ (holding (setVFrame.take 5) [.append []]).inbox = .append [] :: [] :=
  ⟨holding_inv _, rfl⟩
theorem witness_StepKeepsTheConfiguration : ∃ t, step (issue [.decode setVFrame]) = .next t := ⟨_, rfl⟩
theorem witness_StepKeepsDeliveredEvents : ∃ t, step (issue [.append setVFrame, .clear]) = .next t := ⟨_, rfl⟩
/-- The rows of `test_config_refuses_late_cond`, `test_config_refuses_long_branch` and `test_config_refuses_inner_rest`, and a `REST`
inside a `REPEAT`. -/
theorem witness_IllFormedConfigurationIsRefused :
    { State.reset with cfg := { Config.default with discardBound := 0 } }.cfg.discardBound = 0 ∧
    { State.reset with cfg := { Config.default with typeMax := 0x22 } }.cfg.codesInRange = false ∧
    { State.reset with cfg := { Config.default with typeCode := { TypeCodes.default with err := 0x22 } } }.cfg.typeCode.injective = false ∧
    ({ SchemaTable.default with
        machine := .cond .machineType (.literal 1) (.u8 .color .done) (.u8 .error .done) (.u8 .machineType .done) }.row .machine).condsPrecede []
      = false ∧
    ({ SchemaTable.default with
        machine := .u8 .machineType (.cond .machineType (.literal 1) .done (.u8 .error .done) .done) }.row .machine).condsPrecede [] = false ∧
    ({ SchemaTable.default with rgb := .rest .payload (.u8 .error .done) }.row .rgb).restLast true = false ∧
    ({ SchemaTable.default with rgb := .rep .slots 1 (.rest .payload .done) .done }.row .rgb).restLast true = false := by
  decide
theorem witness_IdleStepHoldsTheState : (holding [0x5A] []).cfg.wellFormed = true ∧ (holding [0x5A] []).inbox = [] := by decide
theorem witness_StepKeepsTheInvariant :
    Inv (holding (setVFrame.take 5) [.append (setVFrame.drop 5)]) ∧
      ∃ t, step (holding (setVFrame.take 5) [.append (setVFrame.drop 5)]) = .next t := ⟨holding_inv _, _, rfl⟩
/-- Each of the four operations, from a buffer that is not quiescent. -/
theorem witness_StreamOperationsEndQuiescent :
    ((holding setVFrame [.append [0xAA]]).cfg.wellFormed = true ∧ (holding setVFrame [.append [0xAA]]).inbox = .append [0xAA] :: [] ∧
      (∀ f, Operation.append [0xAA] ≠ .decode f) ∧ ∃ t, step (holding setVFrame [.append [0xAA]]) = .next t) ∧
    ((∀ f, Operation.push 0xAA ≠ .decode f) ∧ ∃ t, step (holding setVFrame [.push 0xAA]) = .next t) ∧
    ((∀ f, Operation.clear ≠ .decode f) ∧ ∃ t, step (holding setVFrame [.clear]) = .next t) ∧
    ((∀ f, Operation.reset ≠ .decode f) ∧ ∃ t, step (holding setVFrame [.reset]) = .next t) :=
  ⟨⟨by decide, rfl, (fun _ h => nomatch h), _, rfl⟩, ⟨(fun _ h => nomatch h), _, rfl⟩, ⟨(fun _ h => nomatch h), _, rfl⟩,
    (fun _ h => nomatch h), _, rfl⟩
/-- Q0 at the bound, Q1, and Q2 at its longest. -/
theorem witness_QuiescentBuffersAreBounded :
    Quiescent Config.default (List.replicate 256 0xAA) ∧ Quiescent Config.default [0x5A, 0x5A, 0x22] ∧
    Quiescent Config.default ([0x5A, 0x5A, 0x22, 0xFF] ++ List.replicate 250 0) :=
  ⟨.noMagic ((findMagic_eq_none_iff _).mp (by decide +kernel)) (by decide +kernel), .shortHeader ⟨rfl, rfl⟩ (by decide),
    .partialFrame 0x22 0xFF ⟨⟨rfl, rfl⟩, rfl, rfl, by decide, by decide, by decide, by decide⟩ (by decide +kernel) (by decide +kernel)⟩
theorem witness_NothingStopsTheBlock : (issue [.append setVFrame]).cfg.wellFormed = true := by decide
theorem witness_AppendDeliversOneEventPerFrame :
    (issue [.append setVFrame]).cfg.wellFormed = true ∧ (issue [.append setVFrame]).inbox = .append setVFrame :: [] := by decide
theorem witness_EveryByteHasOneFate :
    (issue [.append setVFrame]).inbox = .append setVFrame :: [] ∧ ∃ t, step (issue [.append setVFrame]) = .next t := ⟨rfl, _, rfl⟩
theorem witness_StreamPathFailsOnlyOnChecksumOrLayout :
    (issue [.append setVFrame]).inbox = .append setVFrame :: [] ∧ ∃ t, step (issue [.append setVFrame]) = .next t := ⟨rfl, _, rfl⟩
theorem witness_ChunkingDoesNotMatterWithoutDiscard :
    State.reset.cfg.wellFormed = true ∧ discardFires State.reset.cfg (State.reset.buf ++ setVFrame.take 3) = false ∧
      discardFires State.reset.cfg (leftoverOf State.reset.cfg (State.reset.buf ++ setVFrame.take 3) ++ setVFrame.drop 3) = false := by decide
/-- P1 (b). -/
theorem witness_FrameStreamsDecodeInAnyChunking :
    (State.reset.cfg.wellFormed = true ∧ State.reset.buf = []) ∧
    (∀ f, f ∈ [setVFrame, heartbeatFrame] → CandidateFrame State.reset.cfg f) ∧
    [setVFrame.take 3, setVFrame.drop 3 ++ [0x5A, 0x5A], [0x22, 0x06, 0xEE, 0x00]].flatten = [setVFrame, heartbeatFrame].flatten :=
  ⟨by decide, by simpa using ⟨setV_candidate, heartbeat_candidate⟩, by decide⟩
/-- No plausible header at the head of a buffer whose third and fourth bytes are not plausible. -/
theorem not_plausible {buf : List Byte} (h : (plausible Config.default (byteAt buf 2) (byteAt buf 3)) = false) (t size : Byte) :
    ¬ PlausibleHeader Config.default buf t size := by
  rintro ⟨-, h2, h3, hp⟩
  rw [byteAt, byteAt, h2, h3, Option.getD_some, Option.getD_some, (plausible_iff _ _ _).mpr hp] at h
  exact absurd h (by decide)
/-- V-S2, V-S3 and V-S4 in one: a lone `0x5A`, two implausible false headers, and a tail that ends in `0x5A`. -/
def noise : List Byte := [0x01, 0x5A, 0x13, 0x5A, 0x5A, 0x99, 0x10, 0x5A, 0x5A, 0x11, 0x05, 0x5A]
theorem noise_noFalseHeader : NoFalseHeader Config.default noise heartbeatFrame := fun k hk t size =>
  have h : ∀ k, k < noise.length →
      ¬ (((noise ++ heartbeatFrame).drop k)[0]? = some magicByte ∧ ((noise ++ heartbeatFrame).drop k)[1]? = some magicByte) ∨
      plausible Config.default (byteAt ((noise ++ heartbeatFrame).drop k) 2) (byteAt ((noise ++ heartbeatFrame).drop k) 3) = false := by
    decide
  (h k hk).elim (fun n p => n p.1) (fun n => not_plausible n t size)
theorem witness_NoiseBeforeAFrameIsSkipped :
    ((issue [.append (noise ++ heartbeatFrame)]).cfg.wellFormed = true ∧ (issue [.append (noise ++ heartbeatFrame)]).buf = [] ∧
      (issue [.append (noise ++ heartbeatFrame)]).inbox = .append (noise ++ heartbeatFrame) :: []) ∧
    NoFalseHeader Config.default noise heartbeatFrame ∧ CandidateFrame Config.default heartbeatFrame :=
  ⟨by decide, noise_noFalseHeader, heartbeat_candidate⟩
/-- The same noise, with the least bound that allows it. -/
theorem witness_PushedNoiseWithinTheBoundIsSkipped :
    ({ Config.default with discardBound := 13 }.wellFormed = true ∧ noise.length + 1 ≤ { Config.default with discardBound := 13 }.discardBound ∧
      State.reset.buf = []) ∧
    NoFalseHeader { Config.default with discardBound := 13 } noise heartbeatFrame ∧
    CandidateFrame { Config.default with discardBound := 13 } heartbeatFrame :=
  ⟨by decide, noise_noFalseHeader, heartbeat_candidate⟩
/-- The last two bytes, and the last four, of S1. -/
theorem witness_ScalarsAreLittleEndian : 8 + 2 ≤ setVFrame.length ∧ 6 + 4 ≤ setVFrame.length := by decide
theorem witness_CursorStaysInTheFrame :
    6 ≤ setVFrame.length ∧ ∃ r pos, readSchema Config.default setVFrame Schema.voltageCurrent 6 [] = .ok (r, pos) := ⟨by decide, _, _, rfl⟩
theorem witness_InterpreterFailsOnlyWithLayout : interpret Config.default Schema.machine heartbeatFrame = .error .layout := by rfl
/-- Tag 3, `LOAD_KIND`; tag 2; a byte run under the name; no field of the name. -/
theorem witness_CondReadsExactlyOneBranch :
    (FieldName.loadStatus ≠ .psuStatus ∧ ∀ x, Rec.find? [(.deviceType, x)] .loadStatus = none ∧ Rec.find? [(.deviceType, x)] .psuStatus = none) ∧
    ∀ r, r ∈ [[(.deviceType, .nat 3)], [(.deviceType, .nat 2)], [(.deviceType, .bytes [3])], ([] : Rec)] →
      ∃ r' pos, readSchema Config.default setVFrame (.cond .deviceType .loadKind (.u8 .loadStatus .done) (.u8 .psuStatus .done) .done) 9 r
        = .ok (r', pos) :=
  ⟨⟨by decide, fun _ => ⟨rfl, rfl⟩⟩, fun r _ => by
    simp only [readSchema]
    split <;> exact ⟨_, _, rfl⟩⟩
set_option maxRecDepth 20000 in
/-- V-Y1, whose slot 1 has `online` 2, `output` 0 and `lock` 2. -/
theorem witness_SlotFlagsKeepTheirOwnComparison :
    ∃ t slots slot, exec (.synthesize (Body.ofPayload 0xEE synthesizePayload)) State.reset = .next t ∧
      t.events = State.reset.events ++ [.record (.synthesize 0xEE slots)] ∧ slot ∈ slots :=
  ⟨_, _, _, rfl, rfl, List.mem_cons_self⟩
theorem witness_EncodedIntentsDecodeToTheirRecord :
    State.reset.cfg.wellFormed = true ∧ State.reset.cfg.schema = SchemaTable.default ∧
    (Intent.setAddr [5, 4, 3, 2, 1] 10 2).valid ∧ (Intent.rgb (List.replicate 249 0)).valid ∧
    encodeIntent State.reset.cfg (.setV ⟨33, 10, by decide, by decide⟩ ⟨1, 2, by decide, by decide⟩ 0) = .ok setVFrame ∧
    encodeIntent State.reset.cfg .heartbeat = .ok heartbeatFrame :=
  ⟨by decide, rfl, rfl, by unfold Intent.valid; decide +kernel, by rfl, by rfl⟩
/-- A tie, the largest value, a negative one, and the least one that rounds to 65536. -/
theorem witness_RoundingIsWithinHalfAQuantum :
    (packable ⟨1, 2000, by decide, by decide⟩ ∧ milliRaw ⟨1, 2000, by decide, by decide⟩ = .ok 1) ∧
    (packable ⟨13107, 200, by decide, by decide⟩ ∧ milliRaw ⟨13107, 200, by decide, by decide⟩ = .ok 65535) ∧
    ¬ packable ⟨-1, 2000, by decide, by decide⟩ ∧ ¬ packable ⟨131071, 2000, by decide, by decide⟩ :=
  ⟨⟨by unfold packable; decide +kernel, by rfl⟩, ⟨by unfold packable; decide +kernel, by rfl⟩, by unfold packable; decide +kernel,
    by unfold packable; decide +kernel⟩
/-- Four and six address bytes; five and seven entries; six entries, one of them short. -/
theorem witness_BadAddressParametersYieldNoFrame :
    [1, 2, 3, (4 : Byte)].length ≠ 5 ∧ [1, 2, 3, 4, 5, (6 : Byte)].length ≠ 5 ∧
    (List.replicate 5 ([1, 2, 3, 4, (5 : Byte)], (0 : Byte))).length ≠ 6 ∧
    (List.replicate 7 ([1, 2, 3, 4, (5 : Byte)], (0 : Byte))).length ≠ 6 ∧
    ((List.replicate 5 ([1, 2, 3, 4, (5 : Byte)], (0 : Byte)) ++ [([], 0)]).length = 6 ∧
      ∃ e, e ∈ List.replicate 5 ([1, 2, 3, 4, (5 : Byte)], (0 : Byte)) ++ [([], 0)] ∧ e.1.length ≠ 5) :=
  ⟨by decide, by decide, by decide, by decide, by decide, ([], 0), by simp, by decide⟩

end Sys2Proof.Tests
end

section
/-!
PROOFS. What one operation leaves unchanged (10_state.md R28): the frame rule of the frame decoder, of the loop and of the step.
-/

namespace Sys2Proof.Machine

/-- What every operation does outside the buffer: it keeps the configuration and the queue, and only adds to the delivered events. -/
structure State.Extends (s t : State) : Prop where
  cfg : t.cfg = s.cfg
  inbox : t.inbox = s.inbox
  events : s.events <+: t.events

theorem State.extends_withBuf (s : State) (b : List Byte) : s.Extends (s.withBuf b) := ⟨rfl, rfl, List.prefix_rfl⟩

theorem State.extends_emit (s : State) (e : Event) : s.Extends (s.emit e) := ⟨rfl, rfl, List.prefix_append _ _⟩

theorem State.Extends.refl (s : State) : s.Extends s := s.extends_withBuf s.buf

theorem State.Extends.trans {s t u : State} (hst : s.Extends t) (htu : t.Extends u) : s.Extends u :=
  ⟨htu.cfg.trans hst.cfg, htu.inbox.trans hst.inbox, hst.events.trans htu.events⟩

/-- Every instruction delivers one event and changes nothing else. -/
theorem exec_eq_emit (i : Instr) (s : State) : ∃ e, exec i s = .next (s.emit e) := by
  rcases exec_shape i s with ⟨m, b, h⟩ | ⟨t, b, h⟩
  · exact h ▸ runNamed_cases m (finishOf m) b s
  · exact h ▸ runUnknown_cases t b s

/-- Every frame, instruction or not, delivers one event and changes nothing else (41_validator_dispatch.md R126). -/
theorem runFrame_eq_emit (f : List Byte) (s : State) : ∃ e, runFrame f s = .next (s.emit e) := by
  unfold runFrame
  split
  · exact ⟨_, rfl⟩
  · exact exec_eq_emit _ s

/-- The loop always ends in a next state, and outside the buffer it only adds events. -/
theorem process_extends (passes : Nat) (s : State) : ∃ t, process passes s = .next t ∧ s.Extends t := by
  induction passes generalizing s with
  | zero => exact ⟨s, rfl, .refl s⟩
  | succ passes ih =>
    rw [process_succ]
    cases pass s.cfg s.buf with
    | stop buf => exact ⟨_, rfl, s.extends_withBuf buf⟩
    | retry buf =>
      obtain ⟨t, hrun, hext⟩ := ih (s.withBuf buf)
      exact ⟨t, hrun, (s.extends_withBuf buf).trans hext⟩
    | candidate f buf =>
      obtain ⟨e, he⟩ := runFrame_eq_emit f (s.withBuf buf)
      obtain ⟨t, hrun, hext⟩ := ih ((s.withBuf buf).emit e)
      refine ⟨t, ?_, ((s.extends_withBuf buf).trans (State.extends_emit _ e)).trans hext⟩
      simp only [he, hrun]

theorem opAppend_extends (chunk : List Byte) (s : State) : ∃ t, opAppend chunk s = .next t ∧ s.Extends t := by
  obtain ⟨t, hrun, hext⟩ := process_extends ((s.appendTail chunk).buf.length + 1) (s.appendTail chunk)
  exact ⟨t, hrun, (s.extends_withBuf (s.buf ++ chunk)).trans hext⟩

/-- Every operation ends in a next state, and outside the buffer it only adds events. -/
theorem perform_extends (op : Operation) (s : State) : ∃ t, perform op s = .next t ∧ s.Extends t := by
  cases op with
  | reset => exact ⟨_, rfl, s.extends_withBuf []⟩
  | clear => exact ⟨_, rfl, s.extends_withBuf []⟩
  | append chunk => exact opAppend_extends chunk s
  | push b => exact opAppend_extends [b] s
  | decode f =>
    obtain ⟨e, he⟩ := runFrame_eq_emit f s
    exact ⟨_, he, s.extends_emit e⟩

theorem step_of_noOperation {s : State} (hc : s.cfg.wellFormed = true) (hi : s.inbox = []) : step s = .next s := by
  simp only [step, advance, hc, if_true, hi]

/-- A step under a well-formed configuration ends in a next state: beside the buffer, the oldest operation is gone and events were added. -/
theorem step_extends {s : State} (hc : s.cfg.wellFormed = true) :
    ∃ t, step s = .next t ∧ (s.withInbox s.inbox.tail).Extends t := by
  cases hi : s.inbox with
  | nil => exact ⟨s, step_of_noOperation hc hi, rfl, hi, List.prefix_rfl⟩
  | cons op ops =>
    rw [step_of_operation hc hi]
    exact perform_extends op (s.withInbox ops)

/-- A step that answers a next state had a well-formed configuration (92_eei_decisions.md D19). -/
theorem wellFormed_of_step_next {s t : State} (h : step s = .next t) : s.cfg.wellFormed = true := by
  cases hc : s.cfg.wellFormed with
  | true => rfl
  | false =>
    rw [step_of_illFormed hc] at h
    cases h

/-- The frame rule of a step, from the step that was taken. -/
theorem extends_of_step_next {s t : State} (h : step s = .next t) : (s.withInbox s.inbox.tail).Extends t := by
  obtain ⟨u, hu, hext⟩ := step_extends (wellFormed_of_step_next h)
  cases hu.symm.trans h
  exact hext

/-- Settles O37, by the frame rule of a step. -/
theorem stepKeepsDeliveredEvents : Obligations.StepKeepsDeliveredEvents := by
  intro s t h
  obtain ⟨-, hinbox, es, hevents⟩ := extends_of_step_next h
  exact ⟨hinbox, es, hevents.symm⟩

end Sys2Proof.Machine
end

section
/-!
PROOFS. The interpreter's cursor (10_state.md R24, 41_validator_dispatch.md R128, R129): each read keeps it between where it was and the
end of the frame.
-/

namespace Sys2Proof.Machine

/-- A computation of the interpreter that answers: its first part answered, and so did the rest on that answer. -/
theorem exists_of_bind_eq_ok {α β : Type} {x : Except FailKind α} {g : α → Except FailKind β} {b : β} (h : x >>= g = .ok b) :
    ∃ a, x = .ok a ∧ g a = .ok b := by
  cases x with
  | error k => cases h
  | ok a => exact ⟨a, rfl, h⟩

/-- A descriptor that needs `k` bytes goes on only where they are in the frame (41_validator_dispatch.md R129). -/
theorem of_need_bind_eq_ok {β : Type} {f : List Byte} {pos k : Nat} {g : Unit → Except FailKind β} {b : β} (h : need f pos k >>= g = .ok b) :
    pos + k ≤ f.length ∧ g () = .ok b := by
  obtain ⟨u, hneed, hg⟩ := exists_of_bind_eq_ok h
  refine ⟨?_, hg⟩
  by_cases hfits : pos + k ≤ f.length
  · exact hfits
  · rw [need, if_neg hfits] at hneed
    cases hneed

/-- A read whose cursor, from any place in a frame of `len` bytes, never moves back and never passes the frame's end. -/
def CursorStays {α : Type} (len : Nat) (read : Nat → Except FailKind (α × Nat)) : Prop :=
  ∀ (pos pos' : Nat) (a : α), pos ≤ len → read pos = .ok (a, pos') → pos ≤ pos' ∧ pos' ≤ len

/-- Reading on from where a first read left the cursor. -/
theorem CursorStays.trans {α β : Type} {len pos mid pos' : Nat} {a : α} {b : β}
    {first : Nat → Except FailKind (α × Nat)} {next : Nat → Except FailKind (β × Nat)}
    (hfirst : CursorStays len first) (hnext : CursorStays len next) (hpos : pos ≤ len)
    (h1 : first pos = .ok (a, mid)) (h2 : next mid = .ok (b, pos')) : pos ≤ pos' ∧ pos' ≤ len := by
  obtain ⟨hmid, hmidLen⟩ := hfirst pos mid a hpos h1
  obtain ⟨hpos', hlen⟩ := hnext mid pos' b hmidLen h2
  exact ⟨Nat.le_trans hmid hpos', hlen⟩

/-- Reading on behind the `k` bytes a descriptor needs. -/
theorem CursorStays.after_need {β : Type} {f : List Byte} {pos k pos' : Nat} {b : β} {next : Nat → Except FailKind (β × Nat)}
    (hnext : CursorStays f.length next) (h : (need f pos k >>= fun _ => next (pos + k)) = .ok (b, pos')) :
    pos ≤ pos' ∧ pos' ≤ f.length := by
  obtain ⟨hk, hrest⟩ := of_need_bind_eq_ok h
  obtain ⟨hpos', hlen⟩ := hnext (pos + k) pos' b hk hrest
  exact ⟨Nat.le_trans (Nat.le_add_right pos k) hpos', hlen⟩

/-- `REPEAT` keeps the cursor in the frame where its sub-record does. -/
theorem readMany_cursorStays {len : Nat} {readOne : Nat → Except FailKind (Rec × Nat)} (hone : CursorStays len readOne) (count : Nat) :
    CursorStays len (readMany readOne count) := by
  induction count with
  | zero =>
    intro pos pos' rs hpos h
    cases h
    exact ⟨Nat.le_refl pos, hpos⟩
  | succ n ih =>
    intro pos pos' rs hpos h
    obtain ⟨⟨r, mid⟩, h1, h⟩ := exists_of_bind_eq_ok h
    obtain ⟨⟨rs', last⟩, h2, h⟩ := exists_of_bind_eq_ok h
    cases h
    exact hone.trans ih hpos h1 h2

/-- Every schema keeps the cursor in the frame, whatever the record so far. -/
theorem readSchema_cursorStays (cfg : Config) (f : List Byte) (sch : Schema) (r : Rec) :
    CursorStays f.length fun pos => readSchema cfg f sch pos r := by
  induction sch generalizing r with
  | done =>
    intro pos pos' r' hpos h
    cases h
    exact ⟨Nat.le_refl pos, hpos⟩
  | u8 name next ih => exact fun _ _ _ _ h => (ih _).after_need h
  | u16 name next ih => exact fun _ _ _ _ h => (ih _).after_need h
  | u32 name next ih => exact fun _ _ _ _ h => (ih _).after_need h
  | bytes name k next ih => exact fun _ _ _ _ h => (ih _).after_need h
  | rep name count sub next ihSub ihNext =>
    intro pos pos' r' hpos h
    obtain ⟨⟨rs, mid⟩, h1, h2⟩ := exists_of_bind_eq_ok h
    exact (readMany_cursorStays (ihSub []) count).trans (ihNext _) hpos h1 h2
  | cond ref value a b next ihA ihB ihNext =>
    intro pos pos' r' hpos h
    obtain ⟨⟨r₁, mid⟩, h1, h2⟩ := exists_of_bind_eq_ok h
    split at h1
    · exact (ihA r).trans (ihNext r₁) hpos h1 h2
    · exact (ihB r).trans (ihNext r₁) hpos h1 h2
  | repBySize name table sub next ihSub ihNext =>
    intro pos pos' r' hpos h
    simp only [readSchema] at h
    split at h
    · cases h
    · obtain ⟨⟨rs, mid⟩, h1, h2⟩ := exists_of_bind_eq_ok h
      exact (readMany_cursorStays (ihSub []) _).trans (ihNext _) hpos h1 h2
  | rest name next ih =>
    intro pos pos' r' hpos h
    obtain ⟨hend, hlen⟩ := ih _ f.length pos' r' (Nat.le_refl _) h
    exact ⟨Nat.le_trans hpos hend, hlen⟩

/-- Settles O53, by induction on the schema. -/
theorem cursorStaysInTheFrame : Obligations.CursorStaysInTheFrame :=
  fun cfg f sch pos pos' r r' hpos h => readSchema_cursorStays cfg f sch r pos pos' r' hpos h

end Sys2Proof.Machine
end

section
/-!
PROOFS. The reads of frame space (20_memory.md R40): a read takes its lowest byte first, and the next byte counts 256 times as much.
-/

namespace Sys2Proof.Machine

@[simp] theorem memRead_zero (f : List Byte) (p : Nat) : memRead f p 0 = 0 := by
  simp only [memRead, slice, Nat.add_zero, Nat.sub_self, List.take_zero, leValue_nil]

/-- Behind the end of the frame there is nothing to read. -/
theorem memRead_of_length_le {f : List Byte} {p : Nat} (h : f.length ≤ p) (n : Nat) : memRead f p n = 0 := by
  simp only [memRead, slice, List.drop_of_length_le h, List.take_nil, leValue_nil]

/-- A read of one byte more, from its lowest byte. It needs no bound: `byteAt` and `memRead` both answer 0 behind the end of the frame. -/
theorem memRead_succ (f : List Byte) (p n : Nat) : memRead f p (n + 1) = (byteAt f p).toNat + 256 * memRead f (p + 1) n := by
  by_cases hp : p < f.length
  · have hbyte : byteAt f p = f[p] := by rw [byteAt, List.getElem?_eq_getElem hp, Option.getD_some]
    rw [hbyte, memRead, memRead, slice, slice, Nat.add_sub_cancel_left, Nat.add_sub_cancel_left, List.drop_eq_getElem_cons hp,
      List.take_succ_cons, leValue_cons]
  · have hend : f.length ≤ p := Nat.le_of_not_lt hp
    have hbyte : byteAt f p = 0 := by rw [byteAt, List.getElem?_eq_none hend, Option.getD_none]
    rw [hbyte, memRead_of_length_le hend, memRead_of_length_le (Nat.le_succ_of_le hend)]
    rfl

/-- Settles O52, by taking the lowest byte off a read of two and of four bytes. -/
theorem scalarsAreLittleEndian : Obligations.ScalarsAreLittleEndian := by
  intro f p
  constructor
  · intro _
    rw [memRead_succ, memRead_succ, memRead_zero, Nat.mul_zero, Nat.add_zero]
  · intro _
    rw [memRead_succ, memRead_succ, memRead_succ, memRead_succ, memRead_zero]
    simp only [Nat.add_assoc, Nat.reduceAdd]
    omega

end Sys2Proof.Machine
end

section
/-!
PROOFS. The codec (30_encoding.md R60, R75): the code table and its inverse, dispatch and the two parts of an instruction, a frame's bytes
and the decoder. Decode and encode are inverse to each other on the instructions whose constructor their type byte selects.
-/

namespace Sys2Proof

/-! ## The code table -/

theorem PacketType.mem_all (m : PacketType) : m ∈ PacketType.all := by
  cases m <;> decide

theorem TypeCodes.code_of_typeOf? {c : TypeCodes} {t : Byte} {m : PacketType} (h : c.typeOf? t = some m) : c.code m = t := by
  have hfound : (c.code m == t) = true := List.find?_some (p := fun m => c.code m == t) h
  exact beq_iff_eq.mp hfound

theorem TypeCodes.code_injective {c : TypeCodes} (hc : c.injective = true) {m m' : PacketType} (h : c.code m = c.code m') : m = m' := by
  have hnodup : (PacketType.all.map c.code).Nodup := of_decide_eq_true hc
  obtain ⟨i, hi, rfl⟩ := List.getElem_of_mem m.mem_all
  obtain ⟨j, hj, rfl⟩ := List.getElem_of_mem m'.mem_all
  have hbytes : (PacketType.all.map c.code)[i]'(List.length_map c.code ▸ hi) = (PacketType.all.map c.code)[j]'(List.length_map c.code ▸ hj) := by
    rw [List.getElem_map, List.getElem_map, h]
  have hindex : i = j := (List.getElem_inj hnodup).mp hbytes
  subst hindex
  rfl

/-- A code table that gives no byte twice is read back (30_encoding.md R64). -/
theorem TypeCodes.typeOf?_code {c : TypeCodes} (hc : c.injective = true) (m : PacketType) : c.typeOf? (c.code m) = some m := by
  have hsome : (c.typeOf? (c.code m)).isSome = true := List.find?_isSome.mpr ⟨m, m.mem_all, beq_self_eq_true _⟩
  obtain ⟨m', hm'⟩ := Option.isSome_iff_exists.mp hsome
  rw [hm', code_injective hc (code_of_typeOf? hm')]

/-! ## Dispatch -/

@[simp] theorem Instr.typeByte_ofType (cfg : Config) (m : PacketType) (b : Body) :
    (Instr.ofType m b).typeByte cfg = cfg.typeCode.code m := by
  cases m <;> rfl

@[simp] theorem Instr.body_ofType (m : PacketType) (b : Body) : (Instr.ofType m b).body = b := by
  cases m <;> rfl

@[simp] theorem Instr.typeOk_ofType (cfg : Config) (m : PacketType) (b : Body) : (Instr.ofType m b).typeOk cfg = true := by
  cases m <;> rfl

theorem dispatch_of_some {cfg : Config} {t : Byte} {m : PacketType} (h : cfg.typeCode.typeOf? t = some m) (b : Body) :
    dispatch cfg t b = Instr.ofType m b := by
  rw [dispatch, h]

theorem dispatch_of_none {cfg : Config} {t : Byte} (h : cfg.typeCode.typeOf? t = none) (b : Body) :
    dispatch cfg t b = .opaquePacket t b := by
  rw [dispatch, h]

/-- Dispatch loses nothing: the type byte and the body stand in the instruction, and its constructor is the one its type byte selects. -/
theorem dispatch_parts (cfg : Config) (t : Byte) (b : Body) :
    (dispatch cfg t b).typeByte cfg = t ∧ (dispatch cfg t b).body = b ∧ (dispatch cfg t b).typeOk cfg = true := by
  cases h : cfg.typeCode.typeOf? t with
  | some m =>
    rw [dispatch_of_some h, Instr.typeByte_ofType, Instr.body_ofType, Instr.typeOk_ofType]
    exact ⟨TypeCodes.code_of_typeOf? h, rfl, rfl⟩
  | none =>
    rw [dispatch_of_none h]
    exact ⟨rfl, rfl, Option.isNone_iff_eq_none.mpr h⟩

/-- An instruction whose constructor its type byte selects is what dispatch makes of its parts. -/
theorem dispatch_typeByte_body {cfg : Config} {i : Instr} (hc : cfg.typeCode.injective = true) (hi : i.typeOk cfg = true) :
    dispatch cfg (i.typeByte cfg) i.body = i := by
  rcases Machine.Instr_ofType_or_opaque i with ⟨m, b, rfl⟩ | ⟨t, b, rfl⟩
  · rw [Instr.typeByte_ofType, Instr.body_ofType, dispatch_of_some (TypeCodes.typeOf?_code hc m)]
  · exact dispatch_of_none (Option.isNone_iff_eq_none.mp hi) b

/-! ## The decoder and the bytes of a frame -/

theorem decode_frameBytes (cfg : Config) (t : Byte) (b : Body) : decode cfg (frameBytes t b) = .ok (dispatch cfg t b) := by
  rw [frameBytes, decode, if_pos ⟨rfl, rfl⟩]

/-- A byte sequence that decodes is a frame, and what it decodes to is what dispatch makes of it. -/
theorem eq_frameBytes_of_decode {cfg : Config} {f : List Byte} {i : Instr} (h : decode cfg f = .ok i) :
    ∃ t b, f = frameBytes t b ∧ i = dispatch cfg t b := by
  unfold decode at h
  split at h
  next m0 m1 t size channel checksum payload =>
    split at h
    next hmagic =>
      cases h
      obtain ⟨rfl, rfl⟩ := hmagic
      exact ⟨t, ⟨size, channel, checksum, payload⟩, rfl, rfl⟩
    next => cases h
  next => split at h <;> cases h
  next => cases h

theorem decode_encode {cfg : Config} {i : Instr} (hc : cfg.typeCode.injective = true) (hi : i.typeOk cfg = true) :
    decode cfg (encode cfg i) = .ok i := by
  rw [encode, decode_frameBytes, dispatch_typeByte_body hc hi]

theorem encode_dispatch (cfg : Config) (t : Byte) (b : Body) : encode cfg (dispatch cfg t b) = frameBytes t b := by
  obtain ⟨htype, hbody, -⟩ := dispatch_parts cfg t b
  rw [encode, htype, hbody]

/-- Settles O1: dispatch on the type byte of an instruction gives back its constructor. -/
theorem decodeAfterEncodeIsIdentity : Obligations.DecodeAfterEncodeIsIdentity :=
  fun _ _ hc hi => decode_encode hc hi

/-- Settles O2: what decodes is a frame, and dispatch keeps its type byte and its body. -/
theorem encodeAfterDecodeIsIdentity : Obligations.EncodeAfterDecodeIsIdentity := by
  intro cfg f i h
  obtain ⟨t, b, rfl, rfl⟩ := eq_frameBytes_of_decode h
  obtain ⟨-, -, hok⟩ := dispatch_parts cfg t b
  exact ⟨encode_dispatch cfg t b, hok⟩

/-- Settles O3, by running the decoder on the five byte sequences. -/
theorem writtenOutFramesDecode : Obligations.WrittenOutFramesDecode := ⟨rfl, rfl, rfl, rfl, rfl⟩

end Sys2Proof
end

section
/-!
PROOFS. Legal frame sizes (30_encoding.md R73): a schema whose number of bytes does not depend on the frame's content takes exactly that
many, or fails with `FAIL_LAYOUT` where the frame ends before them (41_validator_dispatch.md R129), so under `reject` one frame size is legal.
-/

namespace Sys2Proof

/-- The number of bytes a schema takes from a frame of `len` bytes, where it is the same for every content: none for `REST`, for a `COND` with
branches of different widths and for a `REPEAT_BY_SIZE` without a count for `len`. -/
def Schema.width (len : Nat) : Schema → Option Nat
  | .done => some 0
  | .u8 _ next => (next.width len).map (1 + ·)
  | .u16 _ next => (next.width len).map (2 + ·)
  | .u32 _ next => (next.width len).map (4 + ·)
  | .bytes _ k next => (next.width len).map (k + ·)
  | .rep _ count sub next => (sub.width len).bind fun k => (next.width len).map (count * k + ·)
  | .cond _ _ a b next => (a.width len).bind fun k => if b.width len = some k then (next.width len).map (k + ·) else none
  | .repBySize _ table sub next =>
    (Machine.countBySize table len).bind fun count => (sub.width len).bind fun k => (next.width len).map (count * k + ·)
  | .rest _ _ => none

end Sys2Proof

namespace Sys2Proof.Machine

/-! ## Reads of a known width -/

/-- What a read from `pos` of a frame of `len` bytes answers when it takes `n` bytes: the cursor behind them where the frame has them, and
`FAIL_LAYOUT` where it ends before. -/
def Takes {α : Type} (len pos n : Nat) (answer : Except FailKind (α × Nat)) : Prop :=
  (pos + n ≤ len → ∃ a, answer = .ok (a, pos + n)) ∧ (pos ≤ len → len < pos + n → answer = .error .layout)

theorem Takes.nothing {α : Type} (len pos : Nat) (a : α) : Takes len pos 0 (.ok (a, pos)) :=
  ⟨fun _ => ⟨a, rfl⟩, fun hpos hshort => absurd hpos (Nat.not_le_of_lt hshort)⟩

/-- One read after another takes the bytes of both. -/
theorem Takes.bind {α β : Type} {len pos n k : Nat} {first : Except FailKind (α × Nat)} {next : α × Nat → Except FailKind (β × Nat)}
    (hfirst : Takes len pos n first) (hnext : ∀ a, Takes len (pos + n) k (next (a, pos + n))) :
    Takes len pos (n + k) (first >>= next) := by
  obtain ⟨hok, hfail⟩ := hfirst
  by_cases hn : pos + n ≤ len
  · obtain ⟨a, rfl⟩ := hok hn
    obtain ⟨hok', hfail'⟩ := hnext a
    rw [Takes, ← Nat.add_assoc]
    exact ⟨hok', fun _ => hfail' hn⟩
  · refine ⟨fun hfits => absurd hfits (by omega), fun hpos _ => ?_⟩
    rw [hfail hpos (Nat.lt_of_not_le hn)]
    rfl

/-- A descriptor takes the bytes it needs, and then those of the read behind it. -/
theorem Takes.after_need {β : Type} {f : List Byte} {pos k n : Nat} {next : Unit → Except FailKind (β × Nat)}
    (hnext : Takes f.length (pos + k) n (next ())) : Takes f.length pos (k + n) (need f pos k >>= next) := by
  obtain ⟨hok, hfail⟩ := hnext
  by_cases hk : pos + k ≤ f.length
  · rw [need, if_pos hk, Takes, ← Nat.add_assoc]
    exact ⟨hok, fun _ => hfail hk⟩
  · rw [need, if_neg hk]
    exact ⟨fun hfits => absurd hfits (by omega), fun _ _ => rfl⟩

/-- `REPEAT` takes its sub-record's bytes as often as it reads it. -/
theorem readMany_takes {len k : Nat} {readOne : Nat → Except FailKind (Rec × Nat)} (hone : ∀ pos, Takes len pos k (readOne pos))
    (count pos : Nat) : Takes len pos (count * k) (readMany readOne count pos) := by
  induction count generalizing pos with
  | zero =>
    rw [Nat.zero_mul]
    exact .nothing len pos []
  | succ count ih =>
    rw [Nat.succ_mul, Nat.add_comm]
    exact (hone pos).bind fun r => Takes.bind (k := 0) (ih (pos + k)) fun rs => .nothing len _ (r :: rs)

/-- A schema of width `n` takes `n` bytes, whatever the record so far. -/
theorem readSchema_takes (cfg : Config) (f : List Byte) {sch : Schema} {n : Nat} (h : sch.width f.length = some n) (pos : Nat) (r : Rec) :
    Takes f.length pos n (readSchema cfg f sch pos r) := by
  induction sch generalizing n pos r with
  | done =>
    cases h
    exact .nothing _ pos r
  | u8 name next ih | u16 name next ih | u32 name next ih | bytes name k next ih =>
    obtain ⟨m, hnext, rfl⟩ := Option.map_eq_some_iff.mp h
    exact Takes.after_need (ih hnext _ _)
  | rep name count sub next ihSub ihNext =>
    obtain ⟨k, hsub, h⟩ := Option.bind_eq_some_iff.mp h
    obtain ⟨m, hnext, rfl⟩ := Option.map_eq_some_iff.mp h
    exact (readMany_takes (fun p => ihSub hsub p []) count pos).bind fun rs => ihNext hnext _ _
  | cond ref value a b next ihA ihB ihNext =>
    obtain ⟨k, ha, h⟩ := Option.bind_eq_some_iff.mp h
    obtain ⟨hb, h⟩ := Option.ite_none_right_eq_some.mp h
    obtain ⟨m, hnext, rfl⟩ := Option.map_eq_some_iff.mp h
    have hbranch : Takes f.length pos k
        (if refEquals cfg f pos r ref (value.value cfg) then readSchema cfg f a pos r else readSchema cfg f b pos r) := by
      split
      · exact ihA ha pos r
      · exact ihB hb pos r
    exact hbranch.bind fun r' => ihNext hnext _ r'
  | repBySize name table sub next ihSub ihNext =>
    obtain ⟨count, hcount, h⟩ := Option.bind_eq_some_iff.mp h
    obtain ⟨k, hsub, h⟩ := Option.bind_eq_some_iff.mp h
    obtain ⟨m, hnext, rfl⟩ := Option.map_eq_some_iff.mp h
    simp only [readSchema, hcount]
    exact (readMany_takes (fun p => ihSub hsub p []) count pos).bind fun rs => ihNext hnext _ _
  | rest name next ih => cases h

/-! ## Interpreting under `reject` -/

/-- The interpreter gives a record of a legal frame and fails with `FAIL_LAYOUT` on any other. -/
def LayoutDecidedBy (legal : Bool) (answer : Except FailKind Rec) : Prop :=
  (legal = true → ∃ r, answer = .ok r) ∧ (legal = false → answer = .error .layout)

/-- Under `reject`, a schema of width `n` accepts exactly the frames of `6 + n` bytes. -/
theorem interpret_of_width {cfg : Config} {sch : Schema} {f : List Byte} {n : Nat} (hreject : cfg.excess = .reject)
    (hlen : headerLen ≤ f.length) (h : sch.width f.length = some n) :
    LayoutDecidedBy (f.length == headerLen + n) (interpret cfg sch f) := by
  obtain ⟨hok, hfail⟩ := readSchema_takes cfg f h headerLen []
  by_cases hfits : headerLen + n ≤ f.length
  · obtain ⟨r, hr⟩ := hok hfits
    have hrun : interpret cfg sch f = if headerLen + n ≠ f.length ∧ cfg.excess = .reject then .error .layout else .ok r := by
      rw [interpret, hr]
      rfl
    rw [hrun]
    refine ⟨fun hlegal => ⟨r, if_neg ?_⟩, fun hillegal => if_pos ⟨?_, hreject⟩⟩
    · exact fun hne => hne.1 (beq_iff_eq.mp hlegal).symm
    · exact (beq_eq_false_iff_ne.mp hillegal).symm
  · refine ⟨fun hlegal => absurd (Nat.le_of_eq (beq_iff_eq.mp hlegal).symm) hfits, fun _ => ?_⟩
    rw [interpret, hfail hlen (Nat.lt_of_not_le hfits)]
    rfl

/-- A raw payload takes the frame to its end, whatever its length (41_validator_dispatch.md R133). -/
theorem interpret_restPayload (cfg : Config) (f : List Byte) :
    interpret cfg Schema.restPayload f = .ok [(.payload, .bytes (f.drop headerLen))] :=
  if_neg fun hleft => hleft.1 rfl

/-- A descriptor in front of a read that fails with `FAIL_LAYOUT` fails the same way. -/
theorem need_bind_layout {β : Type} (f : List Byte) (pos k : Nat) {next : Unit → Except FailKind β} (h : next () = .error .layout) :
    (need f pos k >>= next) = .error .layout := by
  rw [need]
  split
  · exact h
  · rfl

/-- A row that is a `REPEAT` fails where its first sub-record does. -/
theorem interpret_rep_of_error {cfg : Config} {f : List Byte} {sub : Schema} {k : FailKind} (name : FieldName) (count : Nat) (next : Schema)
    (h : readSchema cfg f sub headerLen [] = .error k) : interpret cfg (.rep name (count + 1) sub next) f = .error k := by
  simp only [interpret, readSchema, readMany, h]
  rfl

/-- A frame whose size is no key of the size table has no wave layout, whatever it holds (41_validator_dispatch.md R132): its first group
already fails. -/
theorem interpret_wave_of_no_count (cfg : Config) {f : List Byte} (h : countBySize waveSizeTable f.length = none) :
    interpret cfg Schema.wave f = .error .layout :=
  interpret_rep_of_error .groups 9 .done (need_bind_layout f headerLen 4 (by simp only [readSchema, h]))

/-- Under `reject`, the interpreter accepts a wave of the two sizes of the table (decision D5) and no other. -/
theorem interpret_wave {cfg : Config} {f : List Byte} (hreject : cfg.excess = .reject) (hlen : headerLen ≤ f.length) :
    LayoutDecidedBy (legalSize .wave f.length) (interpret cfg Schema.wave f) := by
  constructor
  · intro hlegal
    rcases Bool.or_eq_true_iff.mp hlegal with h | h
    · exact (interpret_of_width (n := 120) hreject hlen (by rw [beq_iff_eq.mp h]; rfl)).1 h
    · exact (interpret_of_width (n := 200) hreject hlen (by rw [beq_iff_eq.mp h]; rfl)).1 h
  · intro hillegal
    obtain ⟨h126, h206⟩ := Bool.or_eq_false_iff.mp hillegal
    refine interpret_wave_of_no_count cfg ?_
    simp [countBySize, waveSizeTable, (beq_eq_false_iff_ne.mp h126).symm, (beq_eq_false_iff_ne.mp h206).symm]

/-- Under the default schema table and `reject`, the size of a frame decides whether it has the layout of its type (30_encoding.md R73). -/
theorem interpret_default_row {cfg : Config} {f : List Byte} (hreject : cfg.excess = .reject) (hlen : headerLen ≤ f.length)
    (hmax : f.length ≤ sizeMax) (m : PacketType) :
    LayoutDecidedBy (legalSize m f.length) (interpret cfg (SchemaTable.default.row m) f) := by
  have hraw : LayoutDecidedBy (decide (6 ≤ f.length ∧ f.length ≤ 255)) (interpret cfg Schema.restPayload f) :=
    ⟨fun _ => ⟨_, interpret_restPayload cfg f⟩, fun hillegal => absurd ⟨hlen, hmax⟩ (of_decide_eq_false hillegal)⟩
  cases m with
  | synthesize => exact interpret_of_width (n := 138) hreject hlen rfl
  | wave => exact interpret_wave hreject hlen
  | addr | setAllAddr => exact interpret_of_width (n := 36) hreject hlen rfl
  | machine => exact interpret_of_width (n := 1) hreject hlen rfl
  | setV | setI => exact interpret_of_width (n := 4) hreject hlen rfl
  | setAddr => exact interpret_of_width (n := 6) hreject hlen rfl
  | heartbeat => exact interpret_of_width (n := 0) hreject hlen rfl
  | updateCh | setOutput | getAddr | setCh | startAutoMatch | stopAutoMatch | resetToDfu | rgb | getMachine | err => exact hraw

/-! ## Running a well-formed frame -/

theorem frameBytes_length (t : Byte) (b : Body) : (frameBytes t b).length = headerLen + b.payload.length :=
  Nat.add_comm b.payload.length headerLen

/-- The size byte of a well-formed frame is the length of its bytes (30_encoding.md R61). -/
theorem frameBytes_length_of_wellFormed {b : Body} (hb : b.wellFormed = true) (t : Byte) : (frameBytes t b).length = b.size.toNat := by
  obtain ⟨hsize, -⟩ := Bool.and_eq_true_iff.mp hb
  rw [frameBytes_length, beq_iff_eq.mp hsize]

/-- A well-formed frame passes validation (41_validator_dispatch.md R121, R122). -/
theorem validate_of_wellFormed {b : Body} (hb : b.wellFormed = true) : validate b = .ok () := by
  obtain ⟨hsize, hchecksum⟩ := Bool.and_eq_true_iff.mp hb
  rw [validate, if_neg (not_not_intro (beq_iff_eq.mp hsize)), if_neg (not_not_intro (beq_iff_eq.mp hchecksum))]

/-- What a well-formed frame of a named type delivers is the interpreter's answer, finished. -/
theorem exec_ofType_of_interpret_ok {m : PacketType} {b : Body} {s : State} {r : Rec} (hb : b.wellFormed = true)
    (hr : interpret s.cfg (s.cfg.schema.row m) (frameBytes (s.cfg.typeCode.code m) b) = .ok r) :
    exec (Instr.ofType m b) s =
      deliver (finishOf m b.channel ⟨s.cfg, frameBytes (s.cfg.typeCode.code m) b, [], r⟩) s := by
  simp only [exec_ofType, runNamed, validate_of_wellFormed hb, hr]

/-- A well-formed frame of a named type fails as the interpreter does. -/
theorem exec_ofType_of_interpret_error {m : PacketType} {b : Body} {s : State} {k : FailKind} (hb : b.wellFormed = true)
    (hk : interpret s.cfg (s.cfg.schema.row m) (frameBytes (s.cfg.typeCode.code m) b) = .error k) :
    exec (Instr.ofType m b) s = takeFailure k s := by
  simp only [exec_ofType, runNamed, validate_of_wellFormed hb, hk]

/-- Settles O24: the frame of a well-formed body is as long as its size byte says, and that length decides the layout. -/
theorem legalSizesDecideTheLayout : Obligations.LegalSizesDecideTheLayout := by
  intro s m b hschema hreject hb
  have hsize : (frameBytes (s.cfg.typeCode.code m) b).length = b.size.toNat := frameBytes_length_of_wellFormed hb _
  have hlen : headerLen ≤ (frameBytes (s.cfg.typeCode.code m) b).length := by
    rw [frameBytes_length]
    exact Nat.le_add_right _ _
  have hmax : (frameBytes (s.cfg.typeCode.code m) b).length ≤ sizeMax := hsize ▸ Nat.le_of_lt_succ b.size.isLt
  obtain ⟨hlegal, hillegal⟩ := interpret_default_row hreject hlen hmax m
  rw [← hschema] at hlegal hillegal
  rw [← hsize]
  constructor
  · intro h
    obtain ⟨r, hr⟩ := hlegal h
    exact ⟨_, exec_ofType_of_interpret_ok hb hr⟩
  · exact fun h => exec_ofType_of_interpret_error hb (hillegal h)

end Sys2Proof.Machine
end

section
/-!
PROOFS. One pass of the Frame Assembler (40_assembler.md R94 to R99): where the magic stands, what a header at the head of the buffer makes
of the pass, and everything a pass can do to a buffer, whatever bytes arrive behind it.
-/

namespace Sys2Proof.Machine

/-! ## Magic sequences -/

theorem startsWithMagic_iff_exists_tail {buf : List Byte} : StartsWithMagic buf ↔ ∃ tail, buf = magicByte :: magicByte :: tail := by
  constructor
  · intro h
    match buf, h with
    | [], h => simp [StartsWithMagic] at h
    | [_], h => simp [StartsWithMagic] at h
    | a :: b :: tail, ⟨ha, hb⟩ =>
      cases ha
      cases hb
      exact ⟨tail, rfl⟩
  · rintro ⟨tail, rfl⟩
    exact ⟨rfl, rfl⟩

theorem StartsWithMagic.append {buf : List Byte} (h : StartsWithMagic buf) (later : List Byte) : StartsWithMagic (buf ++ later) := by
  obtain ⟨tail, rfl⟩ := startsWithMagic_iff_exists_tail.mp h
  exact ⟨rfl, rfl⟩

theorem startsWithMagic_of_append {buf later : List Byte} (hlen : 2 ≤ buf.length) (h : StartsWithMagic (buf ++ later)) :
    StartsWithMagic buf := by
  obtain ⟨h0, h1⟩ := h
  rw [List.getElem?_append_left (by omega)] at h0 h1
  exact ⟨h0, h1⟩

theorem StartsWithMagic.two_le_length {buf : List Byte} (h : StartsWithMagic buf) : 2 ≤ buf.length := by
  obtain ⟨tail, rfl⟩ := startsWithMagic_iff_exists_tail.mp h
  exact Nat.le_add_left 2 tail.length

theorem StartsWithMagic.not_noMagic {buf : List Byte} (h : StartsWithMagic buf) : ¬ NoMagic buf := fun hno => hno 0 h

theorem noMagic_cons_iff (a : Byte) (buf : List Byte) : NoMagic (a :: buf) ↔ ¬ StartsWithMagic (a :: buf) ∧ NoMagic buf :=
  ⟨fun h => ⟨h 0, fun k => h (k + 1)⟩, fun ⟨hhead, htail⟩ k => k.casesOn hhead htail⟩

theorem noMagic_of_length_le_one {buf : List Byte} (h : buf.length ≤ 1) : NoMagic buf := by
  rintro k ⟨-, hk⟩
  have : k + 1 < buf.length := (List.getElem?_eq_some_iff.mp hk).1
  omega

theorem noMagic_nil : NoMagic [] := noMagic_of_length_le_one (buf := []) (Nat.zero_le 1)

theorem noMagic_of_append {buf later : List Byte} (h : NoMagic (buf ++ later)) : NoMagic buf := by
  rintro k ⟨h0, h1⟩
  have hk : k + 1 < buf.length := (List.getElem?_eq_some_iff.mp h1).1
  refine h k ⟨?_, ?_⟩
  · rwa [List.getElem?_append_left (Nat.lt_of_succ_lt hk)]
  · rwa [List.getElem?_append_left hk]

theorem not_noMagic_append_right (garbage : List Byte) {tail : List Byte} (h : ¬ NoMagic tail) : ¬ NoMagic (garbage ++ tail) := by
  induction garbage with
  | nil => exact h
  | cons a garbage ih => exact fun hno => ih ((noMagic_cons_iff _ _).mp hno).2

/-! ## Headers -/

theorem PlausibleHeader.exists_tail {cfg : Config} {buf : List Byte} {t size : Byte} (h : PlausibleHeader cfg buf t size) :
    ∃ tail, buf = magicByte :: magicByte :: t :: size :: tail := by
  obtain ⟨hmagic, h2, h3, -⟩ := h
  obtain ⟨tail, rfl⟩ := startsWithMagic_iff_exists_tail.mp hmagic
  match tail, h2, h3 with
  | [], h2, _ => cases h2
  | [_], _, h3 => cases h3
  | _ :: _ :: tail, h2, h3 =>
    cases h2
    cases h3
    exact ⟨tail, rfl⟩

theorem PlausibleHeader.four_le_length {cfg : Config} {buf : List Byte} {t size : Byte} (h : PlausibleHeader cfg buf t size) :
    4 ≤ buf.length := by
  obtain ⟨tail, rfl⟩ := h.exists_tail
  exact Nat.le_add_left 4 tail.length

theorem PlausibleHeader.six_le_size {cfg : Config} {buf : List Byte} {t size : Byte} (h : PlausibleHeader cfg buf t size) :
    6 ≤ size.toNat := by
  obtain ⟨-, -, -, -, -, hmin, -⟩ := h
  exact hmin

theorem PlausibleHeader.append {cfg : Config} {buf : List Byte} {t size : Byte} (h : PlausibleHeader cfg buf t size) (later : List Byte) :
    PlausibleHeader cfg (buf ++ later) t size := by
  obtain ⟨tail, rfl⟩ := h.exists_tail
  obtain ⟨-, -, -, hranges⟩ := h
  exact ⟨⟨rfl, rfl⟩, rfl, rfl, hranges⟩

theorem plausibleHeader_of_append {cfg : Config} {buf later : List Byte} {t size : Byte} (hlen : 4 ≤ buf.length)
    (h : PlausibleHeader cfg (buf ++ later) t size) : PlausibleHeader cfg buf t size := by
  obtain ⟨hmagic, h2, h3, hranges⟩ := h
  rw [List.getElem?_append_left (by omega)] at h2 h3
  exact ⟨startsWithMagic_of_append (by omega) hmagic, h2, h3, hranges⟩

/-! ## The pass by the head of the buffer -/

variable {cfg : Config}

/-- Step 2: a byte in front of which no magic sequence begins is dropped with the garbage (40_assembler.md R95). -/
theorem pass_cons_of_not_startsWithMagic {a : Byte} {buf : List Byte} (hhead : ¬ StartsWithMagic (a :: buf)) (hbuf : ¬ NoMagic buf) :
    pass cfg (a :: buf) = pass cfg buf := by
  cases hk : findMagic buf with
  | none => exact absurd ((findMagic_eq_none_iff buf).mp hk) hbuf
  | some k =>
    have hfind : findMagic (a :: buf) = some (k + 1) := by
      cases buf with
      | nil => cases hk
      | cons b rest => rw [findMagic_cons_cons, if_neg (by simpa [StartsWithMagic] using hhead), hk, Option.map_some]
    rw [pass_of_findMagic cfg hfind, pass_of_findMagic cfg hk, List.drop_succ_cons]

/-- Step 3: a header of fewer than four bytes waits (40_assembler.md R96). -/
theorem pass_of_shortHeader {buf : List Byte} (h : StartsWithMagic buf) (hlen : buf.length < 4) : pass cfg buf = .stop buf := by
  rw [pass_of_startsWithMagic cfg h]
  match buf, hlen with
  | [], _ | [_], _ | [_, _], _ | [_, _, _], _ => rfl

/-- Step 4: an implausible header loses its first byte (40_assembler.md R97). -/
theorem pass_of_implausible {buf : List Byte} (h : StartsWithMagic buf) (hlen : 4 ≤ buf.length)
    (himp : ∀ t size, ¬ PlausibleHeader cfg buf t size) : pass cfg buf = .retry (buf.drop 1) := by
  rw [pass_of_startsWithMagic cfg h]
  match buf, hlen with
  | _ :: _ :: t :: size :: _, _ =>
    exact if_neg fun hp => himp t size ⟨h, rfl, rfl, (plausible_iff cfg t size).mp hp⟩

/-- Step 5: a partial frame waits (40_assembler.md R98). -/
theorem pass_of_partialFrame {buf : List Byte} {t size : Byte} (h : PlausibleHeader cfg buf t size) (hshort : buf.length < size.toNat) :
    pass cfg buf = .stop buf := by
  obtain ⟨tail, rfl⟩ := h.exists_tail
  obtain ⟨hmagic, -, -, hranges⟩ := h
  rw [pass_of_startsWithMagic cfg hmagic, headerPass, if_pos ((plausible_iff cfg t size).mpr hranges), if_pos hshort]

/-- Step 6: a whole frame is removed (40_assembler.md R99). -/
theorem pass_of_wholeFrame {buf : List Byte} {t size : Byte} (h : PlausibleHeader cfg buf t size) (hwhole : size.toNat ≤ buf.length) :
    pass cfg buf = .candidate (buf.take size.toNat) (buf.drop size.toNat) := by
  obtain ⟨tail, rfl⟩ := h.exists_tail
  obtain ⟨hmagic, -, -, hranges⟩ := h
  rw [pass_of_startsWithMagic cfg hmagic, headerPass, if_pos ((plausible_iff cfg t size).mpr hranges), if_neg (Nat.not_lt.mpr hwhole)]

/-- A candidate frame at the head of the buffer is removed whole, whatever stands behind it. -/
theorem CandidateFrame.pass_append {f : List Byte} (hf : CandidateFrame cfg f) (later : List Byte) :
    pass cfg (f ++ later) = .candidate f later := by
  obtain ⟨t, size, hp, hlen⟩ := hf
  rw [pass_of_wholeFrame (hp.append later) (by simp [hlen]), ← hlen, List.take_left, List.drop_left]

theorem CandidateFrame.startsWithMagic {f : List Byte} (hf : CandidateFrame cfg f) : StartsWithMagic f := by
  obtain ⟨_, _, ⟨hmagic, -⟩, -⟩ := hf
  exact hmagic

theorem CandidateFrame.four_le_length {f : List Byte} (hf : CandidateFrame cfg f) : 4 ≤ f.length := by
  obtain ⟨_, _, hp, -⟩ := hf
  exact hp.four_le_length

/-- A buffer in a quiescent shape stays as it is (40_assembler.md R103, R104). -/
theorem Quiescent.pass_eq_stop {buf : List Byte} (h : Quiescent cfg buf) : pass cfg buf = .stop buf := by
  cases h with
  | noMagic h bound => rw [pass_of_noMagic cfg h, if_neg (Nat.not_lt.mpr bound)]
  | shortHeader h len => exact pass_of_shortHeader h (by omega)
  | partialFrame t size h len short => exact pass_of_partialFrame h short

theorem quiescent_nil : Quiescent cfg [] := .noMagic noMagic_nil (Nat.zero_le _)

/-! ## Everything a pass can do -/

/-- What a pass makes of a buffer, by its result, with what it makes of the buffer when later bytes stand behind it. -/
inductive PassShape (cfg : Config) (buf : List Byte) : PassResult → Prop where
  /-- Step 1 over the bound: the buffer is discarded. -/
  | discarded (h : NoMagic buf) (long : cfg.discardBound < buf.length) : PassShape cfg buf (.stop [])
  /-- Step 1 within the bound: the buffer is kept. -/
  | kept (h : NoMagic buf) (bound : buf.length ≤ cfg.discardBound) : PassShape cfg buf (.stop buf)
  /-- Steps 3 and 5: from its first magic sequence on, the buffer waits. -/
  | waits (garbage tail : List Byte) (split : buf = garbage ++ tail) (hmagic : StartsWithMagic tail) (hq : Quiescent cfg tail)
      (later : ∀ y, pass cfg (buf ++ y) = pass cfg (tail ++ y)) : PassShape cfg buf (.stop tail)
  /-- Step 4: the garbage and the first byte of a false header are dropped. -/
  | falseHeader (dropped tail : List Byte) (split : buf = dropped ++ tail)
      (later : ∀ y, pass cfg (buf ++ y) = .retry (tail ++ y)) : PassShape cfg buf (.retry tail)
  /-- Step 6: the garbage is dropped and a candidate frame is removed. -/
  | wholeFrame (garbage f tail : List Byte) (split : buf = garbage ++ f ++ tail) (hf : CandidateFrame cfg f)
      (later : ∀ y, pass cfg (buf ++ y) = .candidate f (tail ++ y)) : PassShape cfg buf (.candidate f tail)

/-- Garbage in front of the first magic sequence changes nothing in the pass, now or when later bytes have arrived. -/
theorem exists_magic_tail (cfg : Config) {buf : List Byte} (h : ¬ NoMagic buf) :
    ∃ garbage tail, buf = garbage ++ tail ∧ StartsWithMagic tail ∧ ∀ y, pass cfg (buf ++ y) = pass cfg (tail ++ y) := by
  induction buf with
  | nil => exact absurd noMagic_nil h
  | cons a buf ih =>
    by_cases hhead : StartsWithMagic (a :: buf)
    · exact ⟨[], a :: buf, rfl, hhead, fun _ => rfl⟩
    · have hbuf : ¬ NoMagic buf := fun hno => h ((noMagic_cons_iff a buf).mpr ⟨hhead, hno⟩)
      obtain ⟨garbage, tail, rfl, htail, hlater⟩ := ih hbuf
      have hlen := htail.two_le_length
      refine ⟨a :: garbage, tail, rfl, htail, fun y => ?_⟩
      have hhead' : ¬ StartsWithMagic (a :: (garbage ++ tail ++ y)) := fun hm =>
        hhead (startsWithMagic_of_append (buf := a :: (garbage ++ tail)) (later := y) (by simp; omega) hm)
      rw [List.cons_append, pass_cons_of_not_startsWithMagic hhead' (fun hno => hbuf (noMagic_of_append hno)), hlater]

/-- Every pass has one of the five shapes. -/
theorem passShape (cfg : Config) (buf : List Byte) : PassShape cfg buf (pass cfg buf) := by
  by_cases hno : NoMagic buf
  · rw [pass_of_noMagic cfg hno]
    split
    next hlong => exact .discarded hno hlong
    next hbound => exact .kept hno (Nat.le_of_not_lt hbound)
  obtain ⟨garbage, tail, rfl, htail, hlater⟩ := exists_magic_tail cfg hno
  have hnow : pass cfg (garbage ++ tail) = headerPass cfg tail := by
    simpa [pass_of_startsWithMagic cfg htail] using hlater []
  rw [hnow]
  rcases headerPass_cases cfg htail with
    ⟨e, hlen⟩ | ⟨t, size, hp, hlen, hshort, e⟩ | ⟨t, size, hp, hwhole, e⟩ | ⟨hlen, himp, e⟩ <;> rw [e]
  · exact .waits garbage tail rfl htail (.shortHeader htail hlen) hlater
  · exact .waits garbage tail rfl htail (.partialFrame t size hp hlen hshort) hlater
  · have hf : CandidateFrame cfg (tail.take size.toNat) := by
      have hfour : 4 ≤ (tail.take size.toNat).length := by
        rw [List.length_take_of_le hwhole]
        exact Nat.le_trans (by decide) hp.six_le_size
      exact ⟨t, size, plausibleHeader_of_append hfour (by rwa [List.take_append_drop]), List.length_take_of_le hwhole⟩
    refine .wholeFrame garbage _ _ (by simp) hf fun y => ?_
    rw [hlater, ← hf.pass_append, ← List.append_assoc, List.take_append_drop]
  · obtain ⟨rest, rfl⟩ := startsWithMagic_iff_exists_tail.mp htail
    refine .falseHeader (garbage ++ [magicByte]) (magicByte :: rest) (by simp) fun y => ?_
    rw [hlater, pass_of_implausible (htail.append y) (by simp at hlen ⊢; omega)
      fun t size hp => himp t size (plausibleHeader_of_append hlen hp)]
    rfl

theorem PassShape.of_eq {buf : List Byte} {result : PassResult} (h : pass cfg buf = result) : PassShape cfg buf result :=
  h ▸ passShape cfg buf

/-- Induction along the passes over a buffer: each leaves a shorter one (40_assembler.md R103). -/
theorem pass_induction {P : List Byte → Prop} (stop : ∀ buf b, pass cfg buf = .stop b → P buf)
    (retry : ∀ buf b, pass cfg buf = .retry b → P b → P buf)
    (candidate : ∀ buf f b, pass cfg buf = .candidate f b → P b → P buf) (buf : List Byte) : P buf := by
  induction hn : buf.length using Nat.strongRecOn generalizing buf with
  | ind n ih =>
    subst hn
    cases h : pass cfg buf with
    | stop b => exact stop buf b h
    | retry b => exact retry buf b h (ih b.length (pass_retry_length h) b rfl)
    | candidate f b =>
      have hlen := pass_candidate_length h
      exact candidate buf f b h (ih b.length (by omega) b rfl)

end Sys2Proof.Machine
end

section
/-!
PROOFS. The frame decoder and the pseudocode of `Decode` (41_validator_dispatch.md R126): running a frame delivers the one event the
pseudocode names, and on a candidate frame that event is no `FAIL_MAGIC` and no `FAIL_SIZE` (40_assembler.md R107).
-/

namespace Sys2Proof.Machine

/-! ## The bytes of a frame by index (20_memory.md R48) -/

section FrameIndices

variable (t : Byte) (b : Body)

@[simp] theorem byteAt_frameBytes_magic0 : byteAt (frameBytes t b) 0 = magicByte := rfl
@[simp] theorem byteAt_frameBytes_magic1 : byteAt (frameBytes t b) 1 = magicByte := rfl
@[simp] theorem byteAt_frameBytes_type : byteAt (frameBytes t b) 2 = t := rfl
@[simp] theorem byteAt_frameBytes_size : byteAt (frameBytes t b) 3 = b.size := rfl
@[simp] theorem byteAt_frameBytes_channel : byteAt (frameBytes t b) 4 = b.channel := rfl
@[simp] theorem byteAt_frameBytes_checksum : byteAt (frameBytes t b) 5 = b.checksum := rfl
@[simp] theorem drop_frameBytes : (frameBytes t b).drop 6 = b.payload := rfl

end FrameIndices

/-! ## One frame, one event -/

/-- A frame that fails validation takes that failure, whatever its type. -/
theorem exec_of_validate_error {i : Instr} {k : FailKind} (h : validate i.body = .error k) (s : State) :
    exec i s = takeFailure k s := by
  rcases Instr_ofType_or_opaque i with ⟨m, b, rfl⟩ | ⟨t, b, rfl⟩
  · rw [Instr.body_ofType] at h
    rw [exec_ofType, runNamed, h]
  · change validate b = .error k at h
    change runUnknown t b s = _
    rw [runUnknown, h]

/-- The event of a frame that passes validation, by its type byte (41_validator_dispatch.md R125, R127). -/
def eventOfValid (cfg : Config) (t : Byte) (b : Body) : Event :=
  match cfg.typeCode.typeOf? t with
  | none => .record (.opaquePacket t b.channel b.payload)
  | some m =>
    match interpret cfg (cfg.schema.row m) (frameBytes t b) with
    | .error k => .fail k
    | .ok r => .record (finishOf m b.channel ⟨cfg, frameBytes t b, [], r⟩)

theorem exec_dispatch_of_validate_ok {s : State} {b : Body} (t : Byte) (hv : validate b = .ok ()) :
    exec (dispatch s.cfg t b) s = .next (s.emit (eventOfValid s.cfg t b)) := by
  unfold eventOfValid
  cases htype : s.cfg.typeCode.typeOf? t with
  | none =>
    rw [dispatch_of_none htype]
    change runUnknown t b s = _
    rw [runUnknown, hv]
    rfl
  | some m =>
    rw [dispatch_of_some htype, exec_ofType, runNamed, hv, TypeCodes.code_of_typeOf? htype]
    dsimp only
    cases interpret s.cfg (s.cfg.schema.row m) (frameBytes t b) <;> rfl

/-- A frame has its magic, so the pseudocode goes on to its size, its checksum and its type. -/
theorem specDecode_frameBytes (cfg : Config) (t : Byte) (b : Body) :
    specDecode cfg (frameBytes t b) =
      if b.size.toNat ≠ 6 + b.payload.length then .fail .size
      else if xorReduce b.payload ≠ b.checksum then .fail .checksum
      else eventOfValid cfg t b := by
  have hmagic : ¬ 6 + b.payload.length < 2 := by omega
  have hheader : ¬ 6 + b.payload.length < 6 := by omega
  simp only [specDecode, eventOfValid, byteAt_frameBytes_magic0, byteAt_frameBytes_magic1, byteAt_frameBytes_type, byteAt_frameBytes_size,
    byteAt_frameBytes_channel, byteAt_frameBytes_checksum, drop_frameBytes, frameBytes_length, headerLen, hmagic, hheader, ne_eq,
    not_true_eq_false, or_self, if_false, false_or]
  rfl

/-- What dispatch makes of a frame delivers the event of the pseudocode. -/
theorem exec_dispatch (s : State) (t : Byte) (b : Body) :
    exec (dispatch s.cfg t b) s = .next (s.emit (specDecode s.cfg (frameBytes t b))) := by
  obtain ⟨-, hbody, -⟩ := dispatch_parts s.cfg t b
  rw [specDecode_frameBytes]
  by_cases hsize : b.size.toNat = 6 + b.payload.length
  · by_cases hsum : xorReduce b.payload = b.checksum
    · have hv : validate b = .ok () := by simp [validate, headerLen, hsize, hsum]
      rw [if_neg (not_not_intro hsize), if_neg (not_not_intro hsum), exec_dispatch_of_validate_ok t hv]
    · have hv : validate b = .error .checksum := by simp [validate, headerLen, hsize, hsum]
      rw [if_neg (not_not_intro hsize), if_pos hsum, exec_of_validate_error (hbody ▸ hv), takeFailure]
  · have hv : validate b = .error .size := by simp [validate, headerLen, hsize]
    rw [if_pos hsize, exec_of_validate_error (hbody ▸ hv), takeFailure]

/-- Bytes that are no instruction fail in the pseudocode as the decoder names it (41_validator_dispatch.md R120, R121). -/
theorem specDecode_of_decode_error {cfg : Config} {f : List Byte} {k : FailKind} (h : decode cfg f = .error k) :
    specDecode cfg f = .fail k := by
  match f, h with
  | [], h | [_], h =>
    cases h
    exact if_pos (.inl (by simp))
  | [m0, m1], h | [m0, m1, _], h | [m0, m1, _, _], h | [m0, m1, _, _, _], h =>
    by_cases hmagic : m0 = magicByte ∧ m1 = magicByte
    · cases (if_pos hmagic).symm.trans h
      simp [specDecode, byteAt, hmagic]
    · cases (if_neg hmagic).symm.trans h
      exact if_pos (.inr (Decidable.not_and_iff_not_or_not.mp hmagic))
  | m0 :: m1 :: _ :: _ :: _ :: _ :: _, h =>
    by_cases hmagic : m0 = magicByte ∧ m1 = magicByte
    · cases (if_pos hmagic).symm.trans h
    · cases (if_neg hmagic).symm.trans h
      exact if_pos (.inr (Decidable.not_and_iff_not_or_not.mp hmagic))

/-- Running a frame delivers the event of the pseudocode and changes nothing else (41_validator_dispatch.md R126). -/
theorem runFrame_eq_specDecode (f : List Byte) (s : State) : runFrame f s = .next (s.emit (specDecode s.cfg f)) := by
  cases h : decode s.cfg f with
  | error k =>
    rw [runFrame, h, specDecode_of_decode_error h]
    rfl
  | ok i =>
    obtain ⟨t, b, rfl, rfl⟩ := eq_frameBytes_of_decode h
    rw [runFrame, h]
    exact exec_dispatch s t b

/-- An instruction delivers the event of the pseudocode on the bytes it was decoded from. -/
theorem exec_of_decode {s : State} {f : List Byte} {i : Instr} (h : decode s.cfg f = .ok i) :
    exec i s = .next (s.emit (specDecode s.cfg f)) := by
  rw [← runFrame_eq_specDecode, runFrame, h]

/-! ## Failures of the interpreter and of candidate frames -/

/-- A computation of the interpreter that can only fail with `FAIL_LAYOUT`. -/
def OnlyLayout {α : Type} (x : Except FailKind α) : Prop := ∀ k, x = .error k → k = .layout

theorem OnlyLayout.ok {α : Type} (a : α) : OnlyLayout (.ok a) := fun _ h => nomatch h

theorem OnlyLayout.layout {α : Type} : OnlyLayout (.error .layout : Except FailKind α) := fun _ h => by
  cases h
  rfl

theorem OnlyLayout.bind {α β : Type} {x : Except FailKind α} {g : α → Except FailKind β} (hx : OnlyLayout x) (hg : ∀ a, OnlyLayout (g a)) :
    OnlyLayout (x >>= g) := by
  intro k h
  cases x with
  | error k' =>
    cases h
    exact hx k rfl
  | ok a => exact hg a k h

theorem need_onlyLayout (f : List Byte) (pos k : Nat) : OnlyLayout (need f pos k) := by
  unfold need
  split
  · exact .ok ()
  · exact .layout

theorem readMany_onlyLayout {readOne : Nat → Except FailKind (Rec × Nat)} (hone : ∀ pos, OnlyLayout (readOne pos)) (count pos : Nat) :
    OnlyLayout (readMany readOne count pos) := by
  induction count generalizing pos with
  | zero => exact .ok _
  | succ n ih => exact (hone pos).bind fun _ => (ih _).bind fun _ => .ok _

/-- Every schema reads to its end or fails with `FAIL_LAYOUT` (41_validator_dispatch.md R129, R132). -/
theorem readSchema_onlyLayout (cfg : Config) (f : List Byte) (sch : Schema) (pos : Nat) (r : Rec) :
    OnlyLayout (readSchema cfg f sch pos r) := by
  induction sch generalizing pos r with
  | done => exact .ok _
  | u8 name next ih | u16 name next ih | u32 name next ih | bytes name k next ih => exact (need_onlyLayout f pos _).bind fun _ => ih _ _
  | rep name count sub next ihSub ihNext => exact (readMany_onlyLayout (fun p => ihSub p []) count pos).bind fun _ => ihNext _ _
  | cond ref value a b next ihA ihB ihNext =>
    refine OnlyLayout.bind ?_ fun _ => ihNext _ _
    split
    · exact ihA pos r
    · exact ihB pos r
  | repBySize name table sub next ihSub ihNext =>
    unfold readSchema
    split
    · exact .layout
    · exact (readMany_onlyLayout (fun p => ihSub p []) _ pos).bind fun _ => ihNext _ _
  | rest name next ih => exact ih _ _

theorem interpret_onlyLayout (cfg : Config) (sch : Schema) (f : List Byte) : OnlyLayout (interpret cfg sch f) := by
  refine (readSchema_onlyLayout cfg f sch headerLen []).bind fun ⟨r, pos⟩ => ?_
  dsimp only
  split
  · exact .layout
  · exact .ok _

/-- A candidate frame is the frame of a body whose size byte is right (00_scope.md R11). -/
theorem CandidateFrame.exists_frameBytes {cfg : Config} {f : List Byte} (hf : CandidateFrame cfg f) :
    ∃ t b, f = frameBytes t b ∧ b.size.toNat = 6 + b.payload.length := by
  obtain ⟨t, size, hp, hlen⟩ := hf
  have hmin := hp.six_le_size
  obtain ⟨tail, rfl⟩ := hp.exists_tail
  match tail, hlen with
  | [], hlen | [_], hlen =>
    simp only [List.length_cons, List.length_nil] at hlen
    omega
  | channel :: checksum :: payload, hlen =>
    refine ⟨t, ⟨size, channel, checksum, payload⟩, rfl, ?_⟩
    simp only [List.length_cons] at hlen ⊢
    omega

/-- A candidate frame fails on its checksum or its layout, if it fails (40_assembler.md R107). -/
theorem CandidateFrame.specDecode_fail_cases {cfg : Config} {f : List Byte} (hf : CandidateFrame cfg f) {k : FailKind}
    (h : specDecode cfg f = .fail k) : k = .checksum ∨ k = .layout := by
  obtain ⟨t, b, rfl, hsize⟩ := hf.exists_frameBytes
  rw [specDecode_frameBytes, if_neg (not_not_intro hsize)] at h
  split at h
  · cases h
    exact .inl rfl
  unfold eventOfValid at h
  split at h
  · cases h
  split at h
  next hk =>
    cases h
    exact .inr (interpret_onlyLayout _ _ _ _ hk)
  next => cases h

end Sys2Proof.Machine
end

section
/-!
PROOFS. The loop `Process` (40_assembler.md R93): it is the assembly of the buffer into candidate frames, each decoded as the pseudocode says,
whatever number of passes it is given beyond the bytes of the buffer.
-/

namespace Sys2Proof.Machine

variable {cfg : Config}

/-! ## The assembly of a buffer -/

/-- More passes than bytes are as many as any: each pass that does not end the loop takes a byte (40_assembler.md R103). -/
theorem assemble_of_length_lt {n m : Nat} {buf : List Byte} (hn : buf.length < n) (hm : buf.length < m) :
    assemble cfg n buf = assemble cfg m buf := by
  induction n generalizing m buf with
  | zero => exact absurd hn (Nat.not_lt_zero _)
  | succ n ih =>
    obtain ⟨m, rfl⟩ := Nat.exists_eq_add_one_of_ne_zero (Nat.ne_zero_of_lt hm)
    unfold assemble
    cases h : pass cfg buf with
    | stop b => rfl
    | retry b =>
      have := pass_retry_length h
      exact ih (by omega) (by omega)
    | candidate f b =>
      have := pass_candidate_length h
      dsimp only
      rw [ih (m := m) (by omega) (by omega)]

theorem discards_of_length_lt {n m : Nat} {buf : List Byte} (hn : buf.length < n) (hm : buf.length < m) :
    discards cfg n buf = discards cfg m buf := by
  induction n generalizing m buf with
  | zero => exact absurd hn (Nat.not_lt_zero _)
  | succ n ih =>
    obtain ⟨m, rfl⟩ := Nat.exists_eq_add_one_of_ne_zero (Nat.ne_zero_of_lt hm)
    unfold discards
    cases h : pass cfg buf with
    | stop b => rfl
    | retry b =>
      have := pass_retry_length h
      exact ih (by omega) (by omega)
    | candidate f b =>
      have := pass_candidate_length h
      exact ih (by omega) (by omega)

/-- The candidate frames of a buffer and what is left of it. -/
def assembly (cfg : Config) (buf : List Byte) : List (List Byte) × List Byte := (framesOf cfg buf, leftoverOf cfg buf)

theorem assemble_eq_assembly {n : Nat} {buf : List Byte} (h : buf.length < n) : assemble cfg n buf = assembly cfg buf :=
  assemble_of_length_lt h (Nat.lt_succ_self _)

theorem assembly_of_stop {buf b : List Byte} (h : pass cfg buf = .stop b) : assembly cfg buf = ([], b) := by
  rw [← assemble_eq_assembly (Nat.lt_succ_self _), assemble, h]

theorem assembly_of_retry {buf b : List Byte} (h : pass cfg buf = .retry b) : assembly cfg buf = assembly cfg b := by
  rw [← assemble_eq_assembly (Nat.lt_succ_self _), assemble, h]
  exact assemble_eq_assembly (pass_retry_length h)

theorem assembly_of_candidate {buf f b : List Byte} (h : pass cfg buf = .candidate f b) :
    assembly cfg buf = (f :: framesOf cfg b, leftoverOf cfg b) := by
  have hlen := pass_candidate_length h
  rw [← assemble_eq_assembly (Nat.lt_succ_self _), assemble, h]
  dsimp only
  rw [assemble_eq_assembly (by omega)]
  rfl

/-- The assembly reads a buffer through its first pass alone. -/
theorem assembly_congr {buf buf' : List Byte} (h : pass cfg buf = pass cfg buf') : assembly cfg buf = assembly cfg buf' := by
  cases hp : pass cfg buf' with
  | stop b => rw [assembly_of_stop hp, assembly_of_stop (h.trans hp)]
  | retry b => rw [assembly_of_retry hp, assembly_of_retry (h.trans hp)]
  | candidate f b => rw [assembly_of_candidate hp, assembly_of_candidate (h.trans hp)]

theorem discardFires_of_retry {buf b : List Byte} (h : pass cfg buf = .retry b) : discardFires cfg buf = discardFires cfg b := by
  rw [discardFires, discards, h]
  exact discards_of_length_lt (pass_retry_length h) (Nat.lt_succ_self _)

theorem discardFires_of_candidate {buf f b : List Byte} (h : pass cfg buf = .candidate f b) :
    discardFires cfg buf = discardFires cfg b := by
  have := pass_candidate_length h
  rw [discardFires, discards, h]
  exact discards_of_length_lt (by omega) (Nat.lt_succ_self _)

/-- Where the loop ends in its first pass, the discard fires on a buffer without a magic sequence over the bound (40_assembler.md R94). -/
theorem discardFires_of_stop {buf b : List Byte} (h : pass cfg buf = .stop b) :
    discardFires cfg buf = true ↔ NoMagic buf ∧ cfg.discardBound < buf.length := by
  rw [discardFires, discards, h, Bool.and_eq_true, decide_eq_true_eq, Option.isNone_iff_eq_none, findMagic_eq_none_iff]

/-- What the loop leaves is quiescent (40_assembler.md R103). -/
theorem assembly_leftover_quiescent (cfg : Config) (buf : List Byte) : Quiescent cfg (assembly cfg buf).2 := by
  induction buf using pass_induction (cfg := cfg) with
  | stop buf b h =>
    rw [assembly_of_stop h]
    cases PassShape.of_eq h with
    | discarded => exact quiescent_nil
    | kept hno hbound => exact .noMagic hno hbound
    | waits _ _ _ _ hq => exact hq
  | retry buf b h ih =>
    rw [assembly_of_retry h]
    exact ih
  | candidate buf f b h ih =>
    rw [assembly_of_candidate h]
    exact ih

/-- A quiescent buffer holds no candidate frame and stays as it is. -/
theorem Quiescent.assembly_eq {buf : List Byte} (h : Quiescent cfg buf) : assembly cfg buf = ([], buf) :=
  assembly_of_stop h.pass_eq_stop

theorem assembly_nil : assembly cfg [] = ([], []) := quiescent_nil.assembly_eq

/-- The first frame of a buffer that begins with a candidate frame is that frame. -/
theorem CandidateFrame.assembly_append {f : List Byte} (hf : CandidateFrame cfg f) (later : List Byte) :
    assembly cfg (f ++ later) = (f :: framesOf cfg later, leftoverOf cfg later) :=
  assembly_of_candidate (hf.pass_append later)

theorem CandidateFrame.assembly_eq {f : List Byte} (hf : CandidateFrame cfg f) : assembly cfg f = ([f], []) := by
  have h := hf.assembly_append []
  rw [List.append_nil] at h
  exact h

/-! ## The loop -/

/-- The state once the frames of an assembly are decoded and its leftover is in the buffer. -/
def State.assembled (s : State) (a : List (List Byte) × List Byte) : State :=
  { s with buf := a.2, events := s.events ++ a.1.map (specDecode s.cfg) }

section

variable (s : State) (a : List (List Byte) × List Byte)

theorem State.assembled_no_frames (b : List Byte) : s.assembled ([], b) = s.withBuf b :=
  congrArg (fun es => { s with buf := b, events := es }) (List.append_nil s.events)

theorem State.assembled_cons (f b : List Byte) (fs : List (List Byte)) :
    s.assembled (f :: fs, b) = (s.emit (specDecode s.cfg f)).assembled (fs, b) :=
  congrArg (fun es => { s with buf := b, events := es }) (List.append_cons s.events _ _)

theorem State.assembled_one_frame (hbuf : s.buf = []) (f : List Byte) : s.assembled ([f], []) = s.emit (specDecode s.cfg f) := by
  rw [State.assembled_cons, State.assembled_no_frames, ← hbuf]
  rfl

theorem State.assembled_assembled (c : List (List Byte) × List Byte) : (s.assembled a).assembled c = s.assembled (a.1 ++ c.1, c.2) := by
  simp [State.assembled]

end

/-- The loop decodes the frames of the assembly, in order, and leaves its leftover. -/
theorem process_eq_assembled (n : Nat) (s : State) : process n s = .next (s.assembled (assemble s.cfg n s.buf)) := by
  induction n generalizing s with
  | zero => exact congrArg _ (s.assembled_no_frames s.buf).symm
  | succ n ih =>
    rw [process_succ, assemble]
    cases pass s.cfg s.buf with
    | stop b => exact congrArg _ (s.assembled_no_frames b).symm
    | retry b => exact ih (s.withBuf b)
    | candidate f b =>
      dsimp only
      rw [runFrame_eq_specDecode, State.assembled_cons]
      exact ih ((s.withBuf b).emit (specDecode s.cfg f))

end Sys2Proof.Machine
end

section
/-!
PROOFS. The operations (40_assembler.md R90 to R102), by the assembly, the pass and the frame decoder.
-/

namespace Sys2Proof.Machine

/-! ## One operation, one step -/

theorem perform_append (chunk : List Byte) (s : State) :
    perform (.append chunk) s = .next (s.assembled (assembly s.cfg (s.buf ++ chunk))) := by
  change process _ (s.appendTail chunk) = _
  rw [process_eq_assembled, assemble_eq_assembly (Nat.lt_succ_self _)]
  rfl

theorem perform_push (b : Byte) (s : State) : perform (.push b) s = perform (.append [b]) s := rfl

/-- The step over an `APPEND`: the assembly of the pending bytes and the chunk (40_assembler.md R91). -/
theorem step_of_append {s : State} {chunk : List Byte} {rest : List Operation} (hc : s.cfg.wellFormed = true)
    (hi : s.inbox = .append chunk :: rest) : step s = .next ((s.withInbox rest).assembled (assembly s.cfg (s.buf ++ chunk))) := by
  rw [step_of_operation hc hi, perform_append]
  rfl

/-- The same step, from the step that was taken. -/
theorem eq_of_step_append {s t : State} {chunk : List Byte} {rest : List Operation} (hi : s.inbox = .append chunk :: rest)
    (h : step s = .next t) : t = (s.withInbox rest).assembled (assembly s.cfg (s.buf ++ chunk)) := by
  rw [step_of_append (wellFormed_of_step_next h) hi] at h
  exact (Host.Outcome.next.inj h).symm

/-! ## Each operation -/

/-- Settles O28: `CLEAR` is the writing of an empty buffer. -/
theorem clearEmptiesTheBuffer : Obligations.ClearEmptiesTheBuffer :=
  fun _ _ hc hi => step_of_operation hc hi

/-- Settles O29: `RESET` is the writing of an empty buffer. -/
theorem resetEmptiesTheBuffer : Obligations.ResetEmptiesTheBuffer :=
  fun _ _ hc hi => step_of_operation hc hi

/-- Settles O30: `opPush` is `opAppend` of the one byte, so the two steps unfold to the same one. -/
theorem pushIsAppendOfOneByte : Obligations.PushIsAppendOfOneByte := fun _ _ _ => rfl

/-- Settles O12, by the two answers of the decoder. -/
theorem directStepRunsTheDecodedInstruction : Obligations.DirectStepRunsTheDecodedInstruction := by
  intro s f rest hc hi
  have hstep : step s = runFrame f (s.withInbox rest) := step_of_operation hc hi
  constructor
  · intro i h
    rw [hstep, runFrame, State.withInbox_cfg, h]
  · intro k h
    rw [hstep, runFrame, State.withInbox_cfg, h]
    rfl

/-- Settles O13: the one candidate frame is all the assembly finds, and its event is that of its instruction. -/
theorem streamStepRunsTheDecodedInstruction : Obligations.StreamStepRunsTheDecodedInstruction := by
  intro s chunk rest hc hi hf
  obtain ⟨t, b, hbytes, -⟩ := hf.exists_frameBytes
  have hdecode : decode s.cfg (s.buf ++ chunk) = .ok (dispatch s.cfg t b) := by rw [hbytes, decode_frameBytes]
  refine ⟨_, hdecode, ?_⟩
  rw [step_of_append hc hi, hf.assembly_eq, exec_of_decode (s := (s.withInbox rest).withBuf []) hdecode]
  rfl

/-- Settles O31: the first pass ends the loop. -/
theorem magicFreeBuffersAreKeptOrDiscarded : Obligations.MagicFreeBuffersAreKeptOrDiscarded := by
  intro s chunk rest hc hi hno
  rw [step_of_append hc hi, assembly_of_stop (pass_of_noMagic s.cfg hno), State.assembled_no_frames]

/-- Garbage before the first magic sequence changes nothing in the pass. -/
theorem pass_garbage_append {cfg : Config} {garbage tail : List Byte} (htail : StartsWithMagic tail)
    (hgarbage : ∀ k, k < garbage.length → ¬ ((garbage ++ tail)[k]? = some magicByte ∧ (garbage ++ tail)[k + 1]? = some magicByte)) :
    pass cfg (garbage ++ tail) = pass cfg tail := by
  induction garbage with
  | nil => rfl
  | cons a garbage ih =>
    have hhead : ¬ StartsWithMagic (a :: (garbage ++ tail)) := hgarbage 0 (Nat.zero_lt_succ _)
    rw [List.cons_append, pass_cons_of_not_startsWithMagic hhead (not_noMagic_append_right garbage htail.not_noMagic)]
    exact ih fun k hk => hgarbage (k + 1) (Nat.succ_lt_succ hk)

/-- Settles O32: the first pass is the same with the garbage and without. -/
theorem leadingGarbageIsDropped : Obligations.LeadingGarbageIsDropped := by
  intro s garbage tail n hbuf htail hgarbage
  rw [process_succ, process_succ, hbuf, pass_garbage_append htail hgarbage]
  rfl

/-- Settles O33, by what the pass makes of each header. -/
theorem headerStepsFollowTheAlgorithm : Obligations.HeaderStepsFollowTheAlgorithm := by
  intro s n hmagic
  refine ⟨fun hlen => ?_, fun hlen himp => ?_, fun t size hp => ⟨fun hshort => ?_, fun hwhole => ?_⟩⟩
  · rw [process_succ, pass_of_shortHeader hmagic hlen]
    rfl
  · rw [process_succ, pass_of_implausible hmagic hlen himp]
  · rw [process_succ, pass_of_partialFrame hp hshort]
    rfl
  · rw [process_succ, pass_of_wholeFrame hp hwhole]
    dsimp only
    rw [runFrame_eq_specDecode]
    rfl

/-- Settles O34: the assembly needs no more passes than the buffer has bytes, and one. -/
theorem processEndsWithinItsPassBound : Obligations.ProcessEndsWithinItsPassBound := by
  intro s n hn
  rw [process_eq_assembled, process_eq_assembled, assemble_of_length_lt hn (Nat.lt_succ_self _)]

/-- Settles O45: the step over an `APPEND` is the assembly. -/
theorem appendDeliversOneEventPerFrame : Obligations.AppendDeliversOneEventPerFrame :=
  fun _ _ _ hc hi => step_of_append hc hi

end Sys2Proof.Machine
end

section
/-!
PROOFS. What holds between operations: the quiescent shapes of the buffer (40_assembler.md R103, R104), and the one fate of every byte (R105, R107).
-/

namespace Sys2Proof.Machine

/-! ## The invariant -/

/-- Settles O35: a quiescent buffer assembles to itself. -/
theorem emptyAppendIsNoOp : Obligations.EmptyAppendIsNoOp := by
  intro s rest hinv hi
  rw [step_of_append hinv.config hi, List.append_nil, hinv.quiescent.assembly_eq, State.assembled_no_frames]
  rfl

/-- An operation leaves a quiescent buffer, unless it is `DECODE`, which leaves the buffer. -/
theorem perform_quiescent {op : Operation} {s t : State} (h : perform op s = .next t) :
    Quiescent t.cfg t.buf ∨ ∃ f, op = .decode f ∧ t.cfg = s.cfg ∧ t.buf = s.buf := by
  cases op with
  | reset | clear =>
    cases h
    exact .inl quiescent_nil
  | append chunk =>
    rw [perform_append] at h
    cases h
    exact .inl (assembly_leftover_quiescent s.cfg (s.buf ++ chunk))
  | push b =>
    rw [perform_push, perform_append] at h
    cases h
    exact .inl (assembly_leftover_quiescent s.cfg (s.buf ++ [b]))
  | decode f =>
    cases (runFrame_eq_specDecode f s).symm.trans h
    exact .inr ⟨f, rfl, rfl, rfl⟩

/-- Settles O42: `DECODE` is the one operation that need not leave a quiescent buffer. -/
theorem streamOperationsEndQuiescent : Obligations.StreamOperationsEndQuiescent := by
  intro s t op rest hc hi hop h
  rw [step_of_operation hc hi] at h
  rcases perform_quiescent h with hq | ⟨f, rfl, -⟩
  · exact hq
  · exact absurd rfl (hop f)

/-- Settles O41: no step changes the configuration; the buffer is quiescent after a stream operation and untouched by any other step. -/
theorem stepKeepsTheInvariant : Obligations.StepKeepsTheInvariant := by
  rintro s t ⟨hc, hq⟩ h
  have hcfg : t.cfg = s.cfg := (extends_of_step_next h).cfg
  refine ⟨hcfg ▸ hc, ?_⟩
  cases hi : s.inbox with
  | nil =>
    cases (step_of_noOperation hc hi).symm.trans h
    exact hq
  | cons op rest =>
    rw [step_of_operation hc hi] at h
    rcases perform_quiescent h with hq' | ⟨f, -, -, hbuf⟩
    · exact hq'
    · rw [hcfg, hbuf]
      exact hq

/-- Settles O43, by the three shapes; a partial frame is shorter than its size byte, at most 255, says. -/
theorem quiescentBuffersAreBounded : Obligations.QuiescentBuffersAreBounded := by
  intro cfg buf hq
  suffices buf.length ≤ max cfg.discardBound 254 by
    simp only [Config.bufCap, sizeMax]
    omega
  cases hq with
  | noMagic _ bound => omega
  | shortHeader _ len => omega
  | partialFrame t size h len short =>
    have := size.isLt
    omega

/-! ## The fate of every byte -/

/-- The bytes of a buffer are those of dropped runs and candidate frames, in order, and then those left over. -/
theorem exists_pieces (cfg : Config) (buf : List Byte) : ∃ pieces : List Piece,
    buf = (pieces.map Piece.bytes).flatten ++ (assembly cfg buf).2 ∧ (∀ f, .frame f ∈ pieces → CandidateFrame cfg f) ∧
      pieces.filterMap Piece.frame? = (assembly cfg buf).1 := by
  induction buf using pass_induction (cfg := cfg) with
  | stop buf b h =>
    obtain ⟨dropped, hsplit⟩ : ∃ dropped, buf = dropped ++ b := by
      cases PassShape.of_eq h with
      | discarded => exact ⟨buf, (List.append_nil buf).symm⟩
      | kept => exact ⟨[], rfl⟩
      | waits garbage _ hsplit => exact ⟨garbage, hsplit⟩
    rw [assembly_of_stop h]
    exact ⟨[.dropped dropped], by simpa [Piece.bytes] using hsplit, by simp, rfl⟩
  | retry buf b h ih =>
    obtain ⟨pieces, hbytes, hframes, hevents⟩ := ih
    cases PassShape.of_eq h with
    | falseHeader dropped _ hsplit =>
      rw [assembly_of_retry h]
      refine ⟨.dropped dropped :: pieces, ?_, by simpa using hframes, hevents⟩
      rw [hsplit, List.map_cons, List.flatten_cons, List.append_assoc, ← hbytes, Piece.bytes]
  | candidate buf f b h ih =>
    obtain ⟨pieces, hbytes, hframes, hevents⟩ := ih
    cases PassShape.of_eq h with
    | wholeFrame garbage _ _ hsplit hf =>
      rw [assembly_of_candidate h]
      refine ⟨.dropped garbage :: .frame f :: pieces, ?_, ?_, congrArg (f :: ·) hevents⟩
      · change buf = garbage ++ (f ++ (pieces.map Piece.bytes).flatten) ++ (assembly cfg b).2
        rw [hsplit, List.append_assoc garbage, List.append_assoc garbage, List.append_assoc f, ← hbytes]
      · intro g hg
        rcases List.mem_cons.mp hg with hg | hg
        · cases hg
        rcases List.mem_cons.mp hg with hg | hg
        · cases hg
          exact hf
        · exact hframes g hg

/-- Settles O46: the pieces of the assembly. -/
theorem everyByteHasOneFate : Obligations.EveryByteHasOneFate := by
  intro s t chunk rest hi h
  obtain rfl := eq_of_step_append hi h
  obtain ⟨pieces, hbytes, hframes, hevents⟩ := exists_pieces s.cfg (s.buf ++ chunk)
  refine ⟨pieces, hbytes, hframes, ?_⟩
  rw [hevents]
  rfl

/-- Settles O47: every event of an `APPEND` is that of a candidate frame. -/
theorem streamPathFailsOnlyOnChecksumOrLayout : Obligations.StreamPathFailsOnlyOnChecksumOrLayout := by
  intro s t chunk rest hi h
  obtain ⟨pieces, -, hframes, hevents⟩ := everyByteHasOneFate s t chunk rest hi h
  have hkind : ∀ k, .fail k ∈ (pieces.filterMap Piece.frame?).map (specDecode s.cfg) → k = .checksum ∨ k = .layout := by
    intro k hk
    obtain ⟨f, hf, hfail⟩ := List.mem_map.mp hk
    obtain ⟨piece, hpiece, hframe⟩ := List.mem_filterMap.mp hf
    cases piece with
    | dropped b => cases hframe
    | frame b =>
      cases hframe
      exact (hframes f hpiece).specDecode_fail_cases hfail
  exact ⟨_, hevents, fun hm => by simpa using hkind _ hm, fun hm => by simpa using hkind _ hm⟩

end Sys2Proof.Machine
end

section
/-!
PROOFS. Streams in chunks (40_assembler.md R106, R108): where the discard does not fire, later bytes find the buffer as if nothing had been
assembled yet; so a stream may be cut anywhere, and what stands in front of a frame is skipped unless it forms a plausible header.
-/

namespace Sys2Proof.Machine

variable {cfg : Config}

/-! ## Later bytes -/

/-- Where the discard does not fire, assembling a buffer with later bytes behind it is assembling the buffer and then its leftover with those
bytes (40_assembler.md R106). -/
theorem assembly_append {buf : List Byte} (h : discardFires cfg buf = false) (later : List Byte) :
    assembly cfg (buf ++ later) =
      ((assembly cfg buf).1 ++ (assembly cfg ((assembly cfg buf).2 ++ later)).1, (assembly cfg ((assembly cfg buf).2 ++ later)).2) := by
  induction buf using pass_induction (cfg := cfg) with
  | stop buf b hp =>
    rw [assembly_of_stop hp]
    refine assembly_congr ?_
    cases PassShape.of_eq hp with
    | discarded hno hlong => exact absurd ((discardFires_of_stop hp).mpr ⟨hno, hlong⟩) (by simp [h])
    | kept => rfl
    | waits _ _ _ _ _ hlater => exact hlater later
  | retry buf b hp ih =>
    cases PassShape.of_eq hp with
    | falseHeader _ _ _ hlater =>
      rw [assembly_of_retry hp, assembly_of_retry (hlater later)]
      exact ih (discardFires_of_retry hp ▸ h)
  | candidate buf f b hp ih =>
    cases PassShape.of_eq hp with
    | wholeFrame _ _ _ _ _ hlater =>
      have hb := ih (discardFires_of_candidate hp ▸ h)
      rw [assembly_of_candidate hp, assembly_of_candidate (hlater later)]
      exact congrArg (fun a : List (List Byte) × List Byte => (f :: a.1, a.2)) hb

/-- The same of the state: two chunks are one. -/
theorem State.assembled_append (s : State) {buf : List Byte} (h : discardFires s.cfg buf = false) (later : List Byte) :
    (s.assembled (assembly s.cfg buf)).assembled (assembly s.cfg ((assembly s.cfg buf).2 ++ later)) =
      s.assembled (assembly s.cfg (buf ++ later)) := by
  rw [State.assembled_assembled, assembly_append h]

/-- The step of an operation that appends a chunk, from a queue that is written out. -/
theorem step_withInbox_of_append {s : State} {op : Operation} {chunk : List Byte} (hop : perform op = perform (.append chunk))
    (hc : s.cfg.wellFormed = true) (ops : List Operation) :
    step (s.withInbox (op :: ops)) = .next ((s.assembled (assembly s.cfg (s.buf ++ chunk))).withInbox ops) := by
  rw [step_of_operation (s := s.withInbox (op :: ops)) hc rfl, hop, perform_append]
  rfl

/-- The same where the bytes `seen` have been assembled and the discard did not fire on them: the chunk is assembled behind them all. -/
theorem step_assembled_of_append {s : State} {op : Operation} {chunk seen : List Byte} (hop : perform op = perform (.append chunk))
    (hc : s.cfg.wellFormed = true) (hseen : discardFires s.cfg seen = false) (ops : List Operation) :
    step ((s.assembled (assembly s.cfg seen)).withInbox (op :: ops)) = .next ((s.assembled (assembly s.cfg (seen ++ chunk))).withInbox ops) := by
  rw [step_withInbox_of_append (s := s.assembled (assembly s.cfg seen)) hop hc, ← s.assembled_append hseen]
  rfl

theorem runSteps_succ {s t : State} (h : step s = .next t) (n : Nat) : runSteps (n + 1) s = runSteps n t := by
  rw [runSteps, h]

/-- Settles O48: the discard does not fire on the first chunk, so the second finds what it would in one chunk. -/
theorem chunkingDoesNotMatterWithoutDiscard : Obligations.ChunkingDoesNotMatterWithoutDiscard := by
  intro s a b rest hc hfirst _
  rw [runSteps_succ (step_withInbox_of_append rfl hc _), runSteps_succ (step_assembled_of_append rfl hc hfirst _),
    runSteps_succ (step_withInbox_of_append rfl hc _), List.append_assoc]

/-- A stream appended by operations `op a` that each append `bytes a`, in a state that has assembled the bytes `seen` of it: the state has
then assembled the whole stream, where the discard fires on no part of it from its beginning. -/
theorem runSteps_stream {α : Type} {op : α → Operation} {bytes : α → List Byte}
    (hop : ∀ a, perform (op a) = perform (.append (bytes a))) (as : List α) (rest : List Operation) {s : State}
    (hc : s.cfg.wellFormed = true) (seen : List Byte)
    (hkeep : ∀ p, p <+: seen ++ as.flatMap bytes → discardFires s.cfg p = false) :
    runSteps as.length ((s.assembled (assembly s.cfg seen)).withInbox (as.map op ++ rest)) =
      .next ((s.withInbox rest).assembled (assembly s.cfg (seen ++ as.flatMap bytes))) := by
  induction as generalizing seen with
  | nil =>
    rw [List.flatMap_nil, List.append_nil]
    rfl
  | cons a as ih =>
    rw [List.flatMap_cons, ← List.append_assoc] at hkeep ⊢
    have hseen : discardFires s.cfg seen = false := hkeep seen (List.append_assoc .. ▸ List.prefix_append _ _)
    rw [List.length_cons, List.map_cons, List.cons_append, runSteps_succ (step_assembled_of_append (hop a) hc hseen _), ih _ hkeep]

/-- The same from an empty buffer. -/
theorem runSteps_stream_of_empty {α : Type} {op : α → Operation} {bytes : α → List Byte}
    (hop : ∀ a, perform (op a) = perform (.append (bytes a))) (as : List α) (rest : List Operation) {s : State}
    (hc : s.cfg.wellFormed = true) (hbuf : s.buf = []) (hkeep : ∀ p, p <+: as.flatMap bytes → discardFires s.cfg p = false) :
    runSteps as.length (s.withInbox (as.map op ++ rest)) = .next ((s.withInbox rest).assembled (assembly s.cfg (as.flatMap bytes))) := by
  have hself : s.assembled (assembly s.cfg []) = s := by
    rw [assembly_nil, State.assembled_no_frames, ← hbuf, State.withBuf_self]
  have h := runSteps_stream hop as rest hc [] hkeep
  rwa [hself] at h

/-! ## Where the discard does not fire -/

theorem discardFires_of_length_le {buf : List Byte} (h : buf.length ≤ cfg.discardBound) : discardFires cfg buf = false := by
  induction buf using pass_induction (cfg := cfg) with
  | stop buf b hp => exact Bool.eq_false_iff.mpr fun hfires => absurd ((discardFires_of_stop hp).mp hfires).2 (Nat.not_lt.mpr h)
  | retry buf b hp ih =>
    rw [discardFires_of_retry hp]
    exact ih (Nat.le_trans (Nat.le_of_lt (pass_retry_length hp)) h)
  | candidate buf f b hp ih =>
    have := pass_candidate_length hp
    rw [discardFires_of_candidate hp]
    exact ih (by omega)

theorem discardFires_of_stop_of_magic {buf b : List Byte} (hp : pass cfg buf = .stop b) (h : ¬ NoMagic buf) : discardFires cfg buf = false :=
  Bool.eq_false_iff.mpr fun hfires => h ((discardFires_of_stop hp).mp hfires).1

/-- Two buffers with a magic sequence and the same first pass. -/
theorem discardFires_congr {buf buf' : List Byte} (hp : pass cfg buf = pass cfg buf') (h : ¬ NoMagic buf) (h' : ¬ NoMagic buf') :
    discardFires cfg buf = discardFires cfg buf' := by
  cases hpass : pass cfg buf' with
  | stop b => rw [discardFires_of_stop_of_magic hpass h', discardFires_of_stop_of_magic (hp.trans hpass) h]
  | retry b => rw [discardFires_of_retry hpass, discardFires_of_retry (hp.trans hpass)]
  | candidate f b => rw [discardFires_of_candidate hpass, discardFires_of_candidate (hp.trans hpass)]

/-- A part of a candidate frame, from its beginning and with the magic, waits or is the frame; it is never discarded. -/
theorem CandidateFrame.discardFires_prefix_of_magic {f g : List Byte} (hf : CandidateFrame cfg f) (hg : g <+: f)
    (hmagic : StartsWithMagic g) : discardFires cfg g = false := by
  obtain ⟨later, rfl⟩ := hg
  obtain ⟨t, size, hp, hlen⟩ := hf
  by_cases hshort : g.length < 4
  · exact discardFires_of_stop_of_magic (pass_of_shortHeader hmagic hshort) hmagic.not_noMagic
  have hpg : PlausibleHeader cfg g t size := plausibleHeader_of_append (Nat.le_of_not_lt hshort) hp
  by_cases hpart : g.length < size.toNat
  · exact discardFires_of_stop_of_magic (pass_of_partialFrame hpg hpart) hmagic.not_noMagic
  rw [discardFires_of_candidate (pass_of_wholeFrame hpg (Nat.le_of_not_lt hpart))]
  rw [List.length_append] at hlen
  exact discardFires_of_length_le (by rw [List.length_drop]; omega)

/-- A part of a candidate frame, from its beginning, is at most one byte or begins with the magic. -/
theorem CandidateFrame.prefix_cases {f g : List Byte} (hf : CandidateFrame cfg f) (hg : g <+: f) : g.length ≤ 1 ∨ StartsWithMagic g := by
  obtain ⟨later, rfl⟩ := hg
  by_cases hlen : g.length ≤ 1
  · exact .inl hlen
  · exact .inr (startsWithMagic_of_append (by omega) hf.startsWithMagic)

/-! ## Streams of frames -/

theorem assembly_flatten {frames : List (List Byte)} (h : ∀ f, f ∈ frames → CandidateFrame cfg f) :
    assembly cfg frames.flatten = (frames, []) := by
  induction frames with
  | nil => exact assembly_nil
  | cons f frames ih =>
    obtain ⟨hf, hframes⟩ := List.forall_mem_cons.mp h
    rw [List.flatten_cons, hf.assembly_append]
    exact congrArg (fun a : List (List Byte) × List Byte => (f :: a.1, a.2)) (ih hframes)

/-- No part of a stream of frames, from its beginning, is discarded. -/
theorem discardFires_prefix_flatten (hbound : 1 ≤ cfg.discardBound) {frames : List (List Byte)}
    (h : ∀ f, f ∈ frames → CandidateFrame cfg f) {p : List Byte} (hp : p <+: frames.flatten) : discardFires cfg p = false := by
  induction frames generalizing p with
  | nil =>
    rw [List.prefix_nil.mp hp]
    exact discardFires_of_length_le (Nat.zero_le _)
  | cons f frames ih =>
    obtain ⟨hf, hframes⟩ := List.forall_mem_cons.mp h
    rw [List.flatten_cons] at hp
    rcases List.prefix_or_prefix_of_prefix hp (List.prefix_append f _) with hpf | ⟨q, rfl⟩
    · rcases hf.prefix_cases hpf with hlen | hmagic
      · exact discardFires_of_length_le (Nat.le_trans hlen hbound)
      · exact hf.discardFires_prefix_of_magic hpf hmagic
    · rw [discardFires_of_candidate (hf.pass_append q)]
      exact ih hframes ((List.prefix_append_right_inj f).mp hp)

theorem one_le_discardBound (h : cfg.wellFormed = true) : 1 ≤ cfg.discardBound := by
  simp only [Config.wellFormed, Bool.and_eq_true, decide_eq_true_eq] at h
  obtain ⟨⟨⟨hbound, -⟩, -⟩, -⟩ := h
  exact hbound

/-- Settles O49: no part of the stream is discarded, so its chunks assemble as the whole does. -/
theorem frameStreamsDecodeInAnyChunking : Obligations.FrameStreamsDecodeInAnyChunking := by
  intro s frames chunks rest hc hbuf hframes hbytes
  have hflat : chunks.flatMap id = frames.flatten := by rw [List.flatMap_id, hbytes]
  have hrun := runSteps_stream_of_empty (op := Operation.append) (bytes := id) (fun _ => rfl) chunks rest hc hbuf
    fun p hp => discardFires_prefix_flatten (one_le_discardBound hc) hframes (hflat ▸ hp)
  rw [hrun, hflat, assembly_flatten hframes]
  rfl

/-! ## Noise in front of a frame -/

/-- A byte in front of a buffer with a magic sequence, where no plausible header begins at it: the pass is that of the buffer, or drops the
byte, or waits for the header to be whole. -/
theorem pass_cons_of_not_plausible {a : Byte} {buf : List Byte} (hbuf : ¬ NoMagic buf)
    (himp : ∀ t size, ¬ PlausibleHeader cfg (a :: buf) t size) :
    pass cfg (a :: buf) = pass cfg buf ∨ pass cfg (a :: buf) = .retry buf ∨ (pass cfg (a :: buf) = .stop (a :: buf) ∧ buf.length < 3) := by
  by_cases hhead : StartsWithMagic (a :: buf)
  · by_cases hlen : (a :: buf).length < 4
    · exact .inr (.inr ⟨pass_of_shortHeader hhead hlen, Nat.lt_of_succ_lt_succ hlen⟩)
    · exact .inr (.inl (pass_of_implausible hhead (Nat.le_of_not_lt hlen) himp))
  · exact .inl (pass_cons_of_not_startsWithMagic hhead hbuf)

theorem NoFalseHeader.head {a : Byte} {noise f : List Byte} (h : NoFalseHeader cfg (a :: noise) f) (t size : Byte) :
    ¬ PlausibleHeader cfg (a :: (noise ++ f)) t size := h 0 (Nat.zero_lt_succ _) t size

theorem NoFalseHeader.tail {a : Byte} {noise f : List Byte} (h : NoFalseHeader cfg (a :: noise) f) : NoFalseHeader cfg noise f :=
  fun k hk => h (k + 1) (Nat.succ_lt_succ hk)

/-- Noise without a false header is dropped, and the frame is found (40_assembler.md R108). -/
theorem NoFalseHeader.assembly_append {noise f : List Byte} (h : NoFalseHeader cfg noise f) (hf : CandidateFrame cfg f) :
    assembly cfg (noise ++ f) = ([f], []) := by
  induction noise with
  | nil => exact hf.assembly_eq
  | cons a noise ih =>
    have hmagic : ¬ NoMagic (noise ++ f) := not_noMagic_append_right noise hf.startsWithMagic.not_noMagic
    rw [List.cons_append, ← ih h.tail]
    rcases pass_cons_of_not_plausible hmagic h.head with hp | hp | ⟨-, hlen⟩
    · exact assembly_congr hp
    · exact assembly_of_retry hp
    · have := hf.four_le_length
      rw [List.length_append] at hlen
      omega

/-- Noise without a false header is not discarded once the magic of the frame behind it has arrived. -/
theorem NoFalseHeader.discardFires_append {noise g later : List Byte} (h : NoFalseHeader cfg noise (g ++ later))
    (hf : CandidateFrame cfg (g ++ later)) (hmagic : StartsWithMagic g) : discardFires cfg (noise ++ g) = false := by
  induction noise with
  | nil => exact hf.discardFires_prefix_of_magic (List.prefix_append g later) hmagic
  | cons a noise ih =>
    have hbuf : ¬ NoMagic (noise ++ g) := not_noMagic_append_right noise hmagic.not_noMagic
    have himp : ∀ t size, ¬ PlausibleHeader cfg (a :: (noise ++ g)) t size := fun t size hp =>
      h.head t size (by simpa using hp.append later)
    have hcons : ¬ NoMagic (a :: (noise ++ g)) := not_noMagic_append_right [a] hbuf
    rcases pass_cons_of_not_plausible hbuf himp with hp | hp | ⟨hp, -⟩
    · rw [List.cons_append, discardFires_congr hp hcons hbuf]
      exact ih h.tail
    · rw [List.cons_append, discardFires_of_retry hp]
      exact ih h.tail
    · exact discardFires_of_stop_of_magic hp hcons

/-- Settles O50: the assembly of the noise and the frame is that of the frame. -/
theorem noiseBeforeAFrameIsSkipped : Obligations.NoiseBeforeAFrameIsSkipped := by
  intro s noise f rest hc hbuf hnoise hf hi
  rw [step_of_append hc hi, hbuf, List.nil_append, hnoise.assembly_append hf]
  exact congrArg _ ((s.withInbox rest).assembled_one_frame hbuf f)

/-- Settles O51: until the magic of the frame has arrived, the bytes are within the bound; from then on no discard fires. -/
theorem pushedNoiseWithinTheBoundIsSkipped : Obligations.PushedNoiseWithinTheBoundIsSkipped := by
  intro s noise f rest hc hbuf hnoise hbound hf
  have hkeep : ∀ p, p <+: noise ++ f → discardFires s.cfg p = false := by
    intro p hp
    rcases List.prefix_or_prefix_of_prefix hp (List.prefix_append noise f) with hpn | ⟨g, rfl⟩
    · exact discardFires_of_length_le (by have := hpn.length_le; omega)
    have hg : g <+: f := (List.prefix_append_right_inj noise).mp hp
    rcases hf.prefix_cases hg with hlen | hmagic
    · exact discardFires_of_length_le (by rw [List.length_append]; omega)
    · obtain ⟨later, rfl⟩ := hg
      exact hnoise.discardFires_append hf hmagic
  have hbytes : (noise ++ f).flatMap (fun b => [b]) = noise ++ f := List.flatMap_singleton' _
  have hrun := runSteps_stream_of_empty (op := Operation.push) (bytes := fun b => [b]) (fun _ => rfl) (noise ++ f) rest hc hbuf
    fun p hp => hkeep p (hbytes ▸ hp)
  rw [hrun, hbytes, hnoise.assembly_append hf]
  exact congrArg _ ((s.withInbox rest).assembled_one_frame hbuf f)

end Sys2Proof.Machine
end

section
/-!
PROOFS. Dispatch and validation of a frame by its indices (41_validator_dispatch.md R120 to R127): what the direct path delivers, check by
check, and what a flipped bit does to the checksum (R124).
-/

namespace Sys2Proof

/-! ## Dispatch (41_validator_dispatch.md R125) -/

@[simp] theorem Instr.packetType?_ofType (m : PacketType) (b : Body) : (Instr.ofType m b).packetType? = some m := by
  cases m <;> rfl

/-- The packet type of what dispatch makes of a frame is the one its type byte is the code of. -/
theorem packetType?_dispatch (cfg : Config) (t : Byte) (b : Body) : (dispatch cfg t b).packetType? = cfg.typeCode.typeOf? t := by
  cases h : cfg.typeCode.typeOf? t with
  | some m => rw [dispatch_of_some h, Instr.packetType?_ofType]
  | none => rw [dispatch_of_none h, Instr.packetType?]

/-- The two invariants of 30_encoding.md R61, as equations. -/
theorem Body.wellFormed_iff (b : Body) :
    b.wellFormed = true ↔ b.size.toNat = 6 + b.payload.length ∧ Machine.xorReduce b.payload = b.checksum := by
  simp [Body.wellFormed, Body.sizeOk, Body.checksumOk, headerLen]

/-- Settles O5: what decodes is a frame, and dispatch keeps its type byte and its body. -/
theorem typeByteSelectsTheInstruction : Obligations.TypeByteSelectsTheInstruction := by
  intro cfg f i h
  obtain ⟨t, b, rfl, rfl⟩ := eq_frameBytes_of_decode h
  obtain ⟨htype, hbody, -⟩ := dispatch_parts cfg t b
  exact ⟨packetType?_dispatch cfg t b, htype, hbody⟩

end Sys2Proof

namespace Sys2Proof.Machine

/-- Settles O27, by the two shapes an instruction has. -/
theorem everyInstructionGivesOneEvent : Obligations.EveryInstructionGivesOneEvent := exec_eq_emit

/-! ## The direct path (40_assembler.md R102) -/

/-- The step over a `DECODE` delivers the event of the pseudocode. -/
theorem step_of_decode {s : State} {f : List Byte} {rest : List Operation} (hc : s.cfg.wellFormed = true)
    (hi : s.inbox = .decode f :: rest) : step s = .next ((s.withInbox rest).emit (specDecode s.cfg f)) := by
  rw [step_of_operation hc hi]
  exact runFrame_eq_specDecode f (s.withInbox rest)

/-- Settles O9: the operation is the frame decoder, which follows the pseudocode. -/
theorem directDecodeFollowsThePseudocode : Obligations.DirectDecodeFollowsThePseudocode :=
  fun _ _ _ hc hi => step_of_decode hc hi

/-! ## The checks of the pseudocode, in order (41_validator_dispatch.md R120 to R122) -/

/-- The test of R120 by indices fails exactly on the frames that do not begin with the magic. -/
theorem magic_test_iff (f : List Byte) :
    (f.length < 2 ∨ byteAt f 0 ≠ magicByte ∨ byteAt f 1 ≠ magicByte) ↔ ¬ StartsWithMagic f := by
  match f with
  | [] | [_] => simp [StartsWithMagic]
  | a :: b :: tail =>
    have hlen : ¬ (a :: b :: tail).length < 2 := by
      rw [List.length_cons, List.length_cons]
      omega
    have hstarts : StartsWithMagic (a :: b :: tail) ↔ a = magicByte ∧ b = magicByte := by
      simp only [StartsWithMagic, List.getElem?_cons_succ, List.getElem?_cons_zero, Option.some.injEq]
    rw [hstarts, Decidable.not_and_iff_not_or_not]
    exact ⟨fun h => h.resolve_left hlen, .inr⟩

theorem specDecode_of_not_startsWithMagic (cfg : Config) {f : List Byte} (h : ¬ StartsWithMagic f) : specDecode cfg f = .fail .magic :=
  if_pos ((magic_test_iff f).mpr h)

theorem specDecode_of_wrong_size (cfg : Config) {f : List Byte} (h : StartsWithMagic f)
    (hsize : f.length < 6 ∨ (byteAt f 3).toNat ≠ f.length) : specDecode cfg f = .fail .size := by
  rw [specDecode, if_neg (fun hno => (magic_test_iff f).mp hno h), if_pos hsize]

/-- Six bytes that begin with the magic are a header: the frame is one of a type byte and a body. -/
theorem StartsWithMagic.exists_frameBytes {f : List Byte} (h : StartsWithMagic f) (hlen : 6 ≤ f.length) : ∃ t b, f = frameBytes t b := by
  obtain ⟨tail, rfl⟩ := startsWithMagic_iff_exists_tail.mp h
  match tail, hlen with
  | t :: size :: channel :: checksum :: payload, _ => exact ⟨t, ⟨size, channel, checksum, payload⟩, rfl⟩

theorem specDecode_of_wrong_checksum (cfg : Config) (t : Byte) {b : Body} (hsize : b.size.toNat = 6 + b.payload.length)
    (hsum : xorReduce b.payload ≠ b.checksum) : specDecode cfg (frameBytes t b) = .fail .checksum := by
  rw [specDecode_frameBytes, if_neg (not_not_intro hsize), if_pos hsum]

theorem specDecode_of_valid (cfg : Config) (t : Byte) {b : Body} (hsize : b.size.toNat = 6 + b.payload.length)
    (hsum : xorReduce b.payload = b.checksum) : specDecode cfg (frameBytes t b) = eventOfValid cfg t b := by
  rw [specDecode_frameBytes, if_neg (not_not_intro hsize), if_neg (not_not_intro hsum)]

/-- Behind the checks only the layout can fail (41_validator_dispatch.md R123). -/
theorem eq_layout_of_eventOfValid_eq_fail {cfg : Config} {t : Byte} {b : Body} {k : FailKind} (h : eventOfValid cfg t b = .fail k) :
    k = .layout := by
  unfold eventOfValid at h
  split at h
  · cases h
  split at h
  next hk =>
    cases h
    exact interpret_onlyLayout _ _ _ _ hk
  next => cases h

/-- Settles O6: the first check of the pseudocode. -/
theorem framesWithoutMagicFail : Obligations.FramesWithoutMagicFail := by
  intro s f rest hc hi hmagic
  rw [step_of_decode hc hi, specDecode_of_not_startsWithMagic _ hmagic]

/-- Settles O7: the second check of the pseudocode, before the checksum is read. -/
theorem framesOfWrongSizeFail : Obligations.FramesOfWrongSizeFail := by
  intro s f rest hc hi hmagic hsize
  rw [step_of_decode hc hi, specDecode_of_wrong_size _ hmagic hsize]

/-- Settles O8: the third check of the pseudocode, and behind it only `FAIL_LAYOUT` is left. -/
theorem checksumDecidesChecksumFailure : Obligations.ChecksumDecidesChecksumFailure := by
  intro s f rest hc hi hmagic hlen hsize
  rw [step_of_decode hc hi]
  obtain ⟨t, b, rfl⟩ := hmagic.exists_frameBytes hlen
  rw [byteAt_frameBytes_size, frameBytes_length] at hsize
  rw [byteAt_frameBytes_checksum, drop_frameBytes]
  constructor
  · intro hsum
    rw [specDecode_of_wrong_checksum _ t hsize hsum]
  · intro hsum u hu hevents
    cases hu
    have hfail : specDecode s.cfg (frameBytes t b) = .fail .checksum := by simpa using hevents
    rw [specDecode_of_valid _ t hsize hsum] at hfail
    cases eq_layout_of_eventOfValid_eq_fail hfail

/-- A frame of an unknown type that passes the checks is passed through (41_validator_dispatch.md R127). -/
theorem eventOfValid_of_unknown {cfg : Config} {t : Byte} (h : cfg.typeCode.typeOf? t = none) (b : Body) :
    eventOfValid cfg t b = .record (.opaquePacket t b.channel b.payload) := by
  rw [eventOfValid, h]

/-- Settles O23: a well-formed body passes validation, and an unknown type has no layout. -/
theorem unknownTypesPassThrough : Obligations.UnknownTypesPassThrough := by
  constructor
  · intro s t b hb
    change runUnknown t b s = _
    rw [runUnknown, validate_of_wellFormed hb]
    rfl
  · intro s f rest hc hi hmagic hlen hsize hsum htype
    rw [step_of_decode hc hi]
    obtain ⟨t, b, rfl⟩ := hmagic.exists_frameBytes hlen
    rw [byteAt_frameBytes_size, frameBytes_length] at hsize
    rw [byteAt_frameBytes_type] at htype
    rw [specDecode_of_valid _ t hsize hsum, eventOfValid_of_unknown htype]
    rfl

/-! ## Flipped bits (41_validator_dispatch.md R124) -/

/-- The bytes with the byte at an index XORed with another. -/
def xorAt (f : List Byte) (k : Nat) (d : Byte) : List Byte := f.set k (byteAt f k ^^^ d)

@[simp] theorem xorAt_length (f : List Byte) (k : Nat) (d : Byte) : (xorAt f k d).length = f.length := List.length_set

theorem byteAt_set_of_ne {f : List Byte} {k l : Nat} (h : k ≠ l) (x : Byte) : byteAt (f.set k x) l = byteAt f l := by
  rw [byteAt, List.getElem?_set_ne h, byteAt]

theorem xorAt_frameBytes_checksum (t : Byte) (b : Body) (d : Byte) :
    xorAt (frameBytes t b) 5 d = frameBytes t { b with checksum := b.checksum ^^^ d } := rfl

theorem xorAt_frameBytes_payload (t : Byte) (b : Body) (n : Nat) (d : Byte) :
    xorAt (frameBytes t b) (n + 6) d = frameBytes t { b with payload := xorAt b.payload n d } := rfl

/-- The XOR of the bytes changes as the one byte does. -/
theorem xorReduce_xorAt {p : List Byte} {n : Nat} (hn : n < p.length) (d : Byte) : xorReduce (xorAt p n d) = xorReduce p ^^^ d := by
  induction p generalizing n with
  | nil => exact absurd hn (Nat.not_lt_zero n)
  | cons x xs ih =>
    cases n with
    | zero =>
      change (x ^^^ d) ^^^ xorReduce xs = (x ^^^ xorReduce xs) ^^^ d
      ac_rfl
    | succ n =>
      change x ^^^ xorReduce (xorAt xs n d) = (x ^^^ xorReduce xs) ^^^ d
      rw [ih (Nat.lt_of_succ_lt_succ hn), BitVec.xor_assoc]

theorem bit_ne_zero : ∀ j, j < 8 → (1 : Byte) <<< j ≠ 0 := by decide

/-- A byte whose XOR leaves another one unchanged is zero. -/
theorem eq_zero_of_xor_eq_self {x d : Byte} (h : x ^^^ d = x) : d = 0 := by
  calc d = x ^^^ (x ^^^ d) := by rw [← BitVec.xor_assoc, BitVec.xor_self, BitVec.zero_xor]
    _ = x ^^^ x := by rw [h]
    _ = 0 := BitVec.xor_self

/-- A changed bit changes the byte. -/
theorem xor_bit_ne (x : Byte) {j : Nat} (hj : j < 8) : x ^^^ ((1 : Byte) <<< j) ≠ x := fun h =>
  bit_ne_zero j hj (eq_zero_of_xor_eq_self h)

/-- Settles O10: the flip changes one side of the checksum comparison and leaves the other. -/
theorem singleBitFlipsFailTheChecksum : Obligations.SingleBitFlipsFailTheChecksum := by
  intro s f i k j h hb hk hlen hj
  obtain ⟨t, b, rfl, rfl⟩ := eq_frameBytes_of_decode h
  obtain ⟨-, hbody, -⟩ := dispatch_parts s.cfg t b
  rw [hbody, Body.wellFormed_iff] at hb
  obtain ⟨hsize, hsum⟩ := hb
  change runFrame (xorAt (frameBytes t b) k _) s = _
  rw [runFrame_eq_specDecode]
  rw [frameBytes_length, headerLen] at hlen
  obtain rfl | ⟨n, rfl⟩ : k = 5 ∨ ∃ n, k = n + 6 := by
    rcases Nat.eq_or_lt_of_le hk with h5 | h6
    · exact .inl h5.symm
    · exact .inr ⟨k - 6, by omega⟩
  · rw [xorAt_frameBytes_checksum, specDecode_of_wrong_checksum]
    · exact hsize
    · exact hsum ▸ (xor_bit_ne _ hj).symm
  · rw [xorAt_frameBytes_payload, specDecode_of_wrong_checksum]
    · simpa using hsize
    · rw [xorReduce_xorAt (by omega), hsum]
      exact xor_bit_ne _ hj

/-- Settles O11: the two flips cancel in the XOR of the payload. -/
theorem pairedFlipsStayUndetected : Obligations.PairedFlipsStayUndetected := by
  intro cfg f i k l j h hb hk hkl hlen _
  obtain ⟨t, b, rfl, rfl⟩ := eq_frameBytes_of_decode h
  obtain ⟨-, hbody, -⟩ := dispatch_parts cfg t b
  rw [hbody, Body.wellFormed_iff] at hb
  obtain ⟨hsize, hsum⟩ := hb
  rw [frameBytes_length, headerLen] at hlen
  obtain ⟨m, rfl⟩ := Nat.exists_eq_add_of_le' hk
  obtain ⟨n, rfl⟩ := Nat.exists_eq_add_of_le' (Nat.le_trans hk (Nat.le_of_lt hkl))
  generalize (1 : Byte) <<< j = d
  rw [← byteAt_set_of_ne (Nat.ne_of_lt hkl) (byteAt (frameBytes t b) (m + 6) ^^^ d)]
  change ∃ i', decode cfg (xorAt (xorAt (frameBytes t b) (m + 6) d) (n + 6) d) = .ok i' ∧ _
  rw [xorAt_frameBytes_payload, xorAt_frameBytes_payload, decode_frameBytes]
  refine ⟨_, rfl, by rw [packetType?_dispatch, packetType?_dispatch], ?_⟩
  obtain ⟨-, hbody', -⟩ := dispatch_parts cfg t { b with payload := xorAt (xorAt b.payload m d) n d }
  rw [hbody', Body.wellFormed_iff]
  refine ⟨by simpa using hsize, ?_⟩
  rw [xorReduce_xorAt (by rw [xorAt_length]; omega), xorReduce_xorAt (by omega), BitVec.xor_assoc, BitVec.xor_self, BitVec.xor_zero, hsum]

end Sys2Proof.Machine
end

section
/-!
PROOFS. Values of a record: the branch a `COND` reads (41_validator_dispatch.md R131), the flags of a slot (R138) and the converted values
(R136, R137).
-/

namespace Sys2Proof.Machine

/-! ## COND (41_validator_dispatch.md R131) -/

/-- A reference that is bound is equal to a number exactly when it is bound to that number. -/
theorem refEquals_iff_of_find? {cfg : Config} {f : List Byte} {pos v : Nat} {r : Rec} {ref : FieldName} {x : Value} (h : r.find? ref = some x) :
    refEquals cfg f pos r ref v = true ↔ x = .nat v := by
  unfold refEquals
  cases x <;> simp [h]

theorem Rec.nat?_eq_none_of_find? {r : Rec} {n : FieldName} (h : r.find? n = none) : r.nat? n = none := by
  rw [Rec.nat?, h]

/-- A one-byte field at the end of a chain binds its name to the byte at the cursor. -/
theorem of_readSchema_u8_done {cfg : Config} {f : List Byte} {n : FieldName} {pos pos' : Nat} {r r' : Rec}
    (h : readSchema cfg f (.u8 n .done) pos r = .ok (r', pos')) : r' = (n, .nat (memRead f pos 1)) :: r ∧ pos' = pos + 1 := by
  obtain ⟨-, hdone⟩ := of_need_bind_eq_ok h
  cases hdone
  exact ⟨rfl, rfl⟩

/-- A `COND` over two one-byte fields binds the name of the one its reference selects. -/
theorem of_readSchema_cond_u8 {cfg : Config} {f : List Byte} {ref a b : FieldName} {v : CondValue} {pos pos' : Nat} {r r' : Rec}
    (h : readSchema cfg f (.cond ref v (.u8 a .done) (.u8 b .done) .done) pos r = .ok (r', pos')) :
    r' = (if refEquals cfg f pos r ref (v.value cfg) then a else b, .nat (memRead f pos 1)) :: r ∧ pos' = pos + 1 := by
  obtain ⟨⟨r₁, mid⟩, hbranch, hdone⟩ := exists_of_bind_eq_ok h
  cases hdone
  split at hbranch
  next href => rw [if_pos href]; exact of_readSchema_u8_done hbranch
  next href => rw [if_neg href]; exact of_readSchema_u8_done hbranch

/-- Settles O55: the record gains one binding, of the name the reference selects. -/
theorem condReadsExactlyOneBranch : Obligations.CondReadsExactlyOneBranch := by
  intro cfg f ref a b v pos pos' r r' hab ha hb h
  obtain ⟨rfl, rfl⟩ := of_readSchema_cond_u8 h
  by_cases href : refEquals cfg f pos r ref (v.value cfg) = true
  · rw [if_pos href]
    have hread : Rec.nat? ((a, .nat (memRead f pos 1)) :: r) a = some (memRead f pos 1) := Rec.nat?_of_find? (if_pos rfl)
    exact ⟨rfl, .inl ⟨hread, (if_neg hab).trans hb⟩,
      fun x hx => ⟨fun _ => hread, fun _ => (refEquals_iff_of_find? hx).mp href⟩⟩
  · rw [if_neg href]
    have hread : Rec.nat? ((b, .nat (memRead f pos 1)) :: r) b = some (memRead f pos 1) := Rec.nat?_of_find? (if_pos rfl)
    have hunread : Rec.find? ((b, .nat (memRead f pos 1)) :: r) a = none := (if_neg hab.symm).trans ha
    refine ⟨rfl, .inr ⟨hread, hunread⟩, fun x hx => ⟨fun hnat => ?_, fun hsome => ?_⟩⟩
    · exact absurd ((refEquals_iff_of_find? hx).mpr hnat) href
    · rw [Rec.nat?_eq_none_of_find? hunread] at hsome
      cases hsome

/-! ## The records an instruction delivers -/

theorem event_eq_of_next_emit {s : State} {e e' : Event}
    (h : Host.Outcome.next (φ := Fault) (ρ := Refusal) (s.emit e) = .next (s.emit e')) : e = e' := by
  simpa using congrArg State.events (Host.Outcome.next.inj h)

/-- A record a named type delivers is what its finishing rule makes of the channel byte and some view. -/
theorem exists_finish_of_runNamed {m : PacketType} {finish : Finish} {b : Body} {s : State} {rec : Record}
    (h : runNamed m finish b s = .next (s.emit (.record rec))) : ∃ v, rec = finish b.channel v := by
  unfold runNamed at h
  split at h
  · cases event_eq_of_next_emit h
  dsimp only at h
  split at h
  · cases event_eq_of_next_emit h
  · cases event_eq_of_next_emit h
    exact ⟨_, rfl⟩

/-- A record the fallback delivers is the opaque one (41_validator_dispatch.md R127). -/
theorem eq_opaquePacket_of_runUnknown {t : Byte} {b : Body} {s : State} {rec : Record}
    (h : runUnknown t b s = .next (s.emit (.record rec))) : rec = .opaquePacket t b.channel b.payload := by
  unfold runUnknown at h
  split at h <;> cases event_eq_of_next_emit h
  rfl

/-- Only `Finish_SYNTHESIZE` makes a synthesize record. -/
theorem slots_of_finishOf_eq_synthesize {m : PacketType} {ch ch' : Byte} {v : View} {slots : List SynthSlot}
    (h : finishOf m ch v = .synthesize ch' slots) : slots = v.each .slots nChannels finishSlot := by
  cases m <;> cases h
  rfl

/-- Every slot of a synthesize record is what `Finish_SYNTHESIZE` makes of some sub-record. -/
theorem exists_finishSlot_of_exec {i : Instr} {s : State} {ch : Byte} {slots : List SynthSlot} {slot : SynthSlot}
    (h : exec i s = .next (s.emit (.record (.synthesize ch slots)))) (hslot : slot ∈ slots) : ∃ v, finishSlot v = slot := by
  rcases exec_shape i s with ⟨m, b, hrun⟩ | ⟨t, b, hrun⟩
  · obtain ⟨v, hrec⟩ := exists_finish_of_runNamed (hrun.symm.trans h)
    obtain ⟨k, -, hk⟩ := View.mem_each (slots_of_finishOf_eq_synthesize hrec.symm ▸ hslot)
    exact ⟨_, hk⟩
  · cases eq_opaquePacket_of_runUnknown (hrun.symm.trans h)

/-- Settles O56: every slot is made by `finishSlot`, which computes each flag from the raw value beside it. -/
theorem slotFlagsKeepTheirOwnComparison : Obligations.SlotFlagsKeepTheirOwnComparison := by
  intro i s t ch slots slot h hevents hslot
  obtain ⟨e, he⟩ := exec_eq_emit i s
  cases h.symm.trans he
  obtain rfl : e = .record (.synthesize ch slots) := by simpa using hevents
  obtain ⟨v, rfl⟩ := exists_finishSlot_of_exec h hslot
  exact ⟨bne_iff_ne, bne_iff_ne, beq_iff_eq⟩

/-! ## Conversions (41_validator_dispatch.md R136, R137) -/

/-- The fraction is the exact quotient of a number by a divisor, in lowest terms. -/
def Fraction.IsQuotient (q : Fraction) (raw divisor : Nat) : Prop :=
  q.num * divisor = raw * q.den ∧ 0 < q.den ∧ Nat.Coprime q.num q.den

theorem Fraction.ofRaw_isQuotient (raw : Nat) {divisor : Nat} (hd : 0 < divisor) : (Fraction.ofRaw raw divisor).IsQuotient raw divisor := by
  have hgcd : 0 < Nat.gcd raw divisor := Nat.gcd_pos_of_pos_right raw hd
  refine ⟨?_, Nat.div_pos (Nat.gcd_le_right raw hd) hgcd, Nat.coprime_div_gcd_div_gcd hgcd⟩
  calc raw / Nat.gcd raw divisor * divisor
      = raw * divisor / Nat.gcd raw divisor := Nat.div_mul_right_comm (Nat.gcd_dvd_left raw divisor) divisor
    _ = raw * (divisor / Nat.gcd raw divisor) := Nat.mul_div_assoc raw (Nat.gcd_dvd_right raw divisor)

/-- Settles O57, for the divisors 1000 and 10. -/
theorem convertedValuesAreExactQuotients : Obligations.ConvertedValuesAreExactQuotients :=
  fun raw => ⟨Fraction.ofRaw_isQuotient raw (Nat.succ_pos 999), Fraction.ofRaw_isQuotient raw (Nat.succ_pos 9)⟩

end Sys2Proof.Machine
end

section
/-!
PROOFS. The types whose row has a fixed length (30_encoding.md R70, R71): their fields by payload offset, under either policy for excess
bytes (41_validator_dispatch.md R129, R130).
-/

namespace Sys2Proof.Machine

/-! ## Reads by payload offset -/

section PayloadReads

variable {cfg : Config} {t : Byte} {b : Body} {o : Nat} {r : Rec}

theorem need_payload {k : Nat} (h : o + k ≤ b.payload.length) : need (frameBytes t b) (headerLen + o) k = .ok () := by
  rw [need, frameBytes_length, if_pos (by omega)]

theorem byteAt_frameBytes_payload (t : Byte) (b : Body) (o : Nat) : byteAt (frameBytes t b) (headerLen + o) = byteAt b.payload o := by
  rw [Nat.add_comm]
  rfl

theorem memRead_frameBytes_one (t : Byte) (b : Body) (o : Nat) : memRead (frameBytes t b) (headerLen + o) 1 = u8At b.payload o := by
  rw [memRead_succ, memRead_zero, byteAt_frameBytes_payload, Nat.mul_zero, Nat.add_zero, u8At]

theorem memRead_frameBytes_two (t : Byte) (b : Body) (o : Nat) : memRead (frameBytes t b) (headerLen + o) 2 = u16At b.payload o := by
  rw [memRead_succ, Nat.add_assoc, memRead_frameBytes_one, byteAt_frameBytes_payload]
  rfl

theorem readSchema_u8_payload (name : FieldName) (next : Schema) (h : o + 1 ≤ b.payload.length) :
    readSchema cfg (frameBytes t b) (.u8 name next) (headerLen + o) r =
      readSchema cfg (frameBytes t b) next (headerLen + (o + 1)) ((name, .nat (u8At b.payload o)) :: r) := by
  rw [readSchema, need_payload h, memRead_frameBytes_one]
  rfl

theorem readSchema_u16_payload (name : FieldName) (next : Schema) (h : o + 2 ≤ b.payload.length) :
    readSchema cfg (frameBytes t b) (.u16 name next) (headerLen + o) r =
      readSchema cfg (frameBytes t b) next (headerLen + (o + 2)) ((name, .nat (u16At b.payload o)) :: r) := by
  rw [readSchema, need_payload h, memRead_frameBytes_two]
  rfl

theorem take_three_drop {p : List Byte} {o : Nat} (h : o + 3 ≤ p.length) :
    (p.drop o).take 3 = [byteAt p o, byteAt p (o + 1), byteAt p (o + 2)] := by
  have hbyte {k : Nat} (hk : k < p.length) : byteAt p k = p[k] := by rw [byteAt, List.getElem?_eq_getElem hk, Option.getD_some]
  rw [List.drop_eq_getElem_cons (by omega), List.drop_eq_getElem_cons (by omega), List.drop_eq_getElem_cons (by omega),
    hbyte, hbyte, hbyte]
  rfl

theorem readSchema_bytes3_payload (name : FieldName) (next : Schema) (h : o + 3 ≤ b.payload.length) :
    readSchema cfg (frameBytes t b) (.bytes name 3 next) (headerLen + o) r =
      readSchema cfg (frameBytes t b) next (headerLen + (o + 3))
        ((name, .bytes [byteAt b.payload o, byteAt b.payload (o + 1), byteAt b.payload (o + 2)]) :: r) := by
  have hslice : slice (frameBytes t b) (headerLen + o) (headerLen + o + 3) = (b.payload.drop o).take 3 := by
    rw [slice, Nat.add_sub_cancel_left, ← List.drop_drop]
    rfl
  rw [readSchema, need_payload h, hslice, take_three_drop h]
  rfl

/-- A `COND` over two one-byte fields, its reference already read (41_validator_dispatch.md R131). -/
theorem readSchema_cond_payload {ref : FieldName} {n : Nat} (v : CondValue) (x y : FieldName) (next : Schema) (hr : r.nat? ref = some n)
    (h : o + 1 ≤ b.payload.length) :
    readSchema cfg (frameBytes t b) (.cond ref v (.u8 x .done) (.u8 y .done) next) (headerLen + o) r =
      readSchema cfg (frameBytes t b) next (headerLen + (o + 1))
        ((if n = v.value cfg then x else y, .nat (u8At b.payload o)) :: r) := by
  rw [readSchema, refEquals_of_nat? hr, readSchema_u8_payload x .done h, readSchema_u8_payload y .done h]
  simp only [readSchema, beq_iff_eq]
  split <;> rfl

end PayloadReads

/-! ## Repeated sub-records -/

/-- A schema that takes `w` bytes of the payload from every offset that has them, and reads the record `rec` gives for the offset. -/
def ReadsFields (cfg : Config) (t : Byte) (b : Body) (sch : Schema) (w : Nat) (rec : Nat → Rec) : Prop :=
  ∀ o, o + w ≤ b.payload.length → readSchema cfg (frameBytes t b) sch (headerLen + o) [] = .ok (rec o, headerLen + (o + w))

theorem readMany_eq_map {readOne : Nat → Except FailKind (Rec × Nat)} {w : Nat} {rec : Nat → Rec} (count o : Nat)
    (h : ∀ k, k < count → readOne (headerLen + (o + w * k)) = .ok (rec (o + w * k), headerLen + (o + w * k + w))) :
    readMany readOne count (headerLen + o) = .ok ((List.range count).map fun k => rec (o + w * k), headerLen + (o + w * count)) := by
  induction count generalizing o with
  | zero => rfl
  | succ count ih =>
    have hfirst : readOne (headerLen + o) = .ok (rec o, headerLen + (o + w)) := h 0 (Nat.succ_pos count)
    have hshift (k : Nat) : o + w * (k + 1) = o + w + w * k := by rw [Nat.mul_succ]; omega
    have hrest := ih (o + w) fun k hk => by
      have := h (k + 1) (Nat.succ_lt_succ hk)
      rwa [hshift] at this
    rw [readMany, hfirst]
    simp only [bind, Except.bind, hrest, List.range_succ_eq_map, List.map_cons, List.map_map, Function.comp_def, hshift,
      Nat.mul_zero, Nat.add_zero, Nat.succ_eq_add_one]

/-- `REPEAT` as the whole of a row: its sub-records stand one behind the other (41_validator_dispatch.md R132). -/
theorem ReadsFields.readSchema_rep {cfg : Config} {t : Byte} {b : Body} {sub : Schema} {w : Nat} {rec : Nat → Rec}
    (h : ReadsFields cfg t b sub w rec) (name : FieldName) {count : Nat} (hlen : w * count ≤ b.payload.length) :
    readSchema cfg (frameBytes t b) (.rep name count sub .done) headerLen [] =
      .ok ([(name, .recs ((List.range count).map fun k => rec (w * k)))], headerLen + w * count) := by
  have hmany := readMany_eq_map (readOne := fun p => readSchema cfg (frameBytes t b) sub p []) (rec := rec) count 0 fun k hk =>
    h _ (by have := Nat.mul_le_mul_left w (Nat.succ_le_of_lt hk); rw [Nat.mul_succ] at this; omega)
  simp only [Nat.zero_add, Nat.add_zero] at hmany
  rw [readSchema, hmany]
  rfl

/-- A record rule over the sub-records of a row, where each element is known from its fields. -/
theorem View.each_eq_map {α : Type} {v : View} {name : FieldName} {count : Nat} {rec : Nat → Rec} {g : View → α} {element : Nat → α}
    (hv : v.fields.recs? name = some ((List.range count).map rec))
    (hg : ∀ u : View, u.cfg = v.cfg → ∀ k, u.fields = rec k → g u = element k) :
    v.each name count g = (List.range count).map element := by
  refine List.map_congr_left fun k hk => hg (v.sub name k) rfl k ?_
  rw [View.sub_fields hv, List.getElem?_map, List.getElem?_range (List.mem_range.mp hk)]
  rfl

/-! ## Frames under either policy -/

/-- The payload has the `n` bytes of a row, and no more under `reject` (41_validator_dispatch.md R129, R130). -/
structure Fits (cfg : Config) (b : Body) (n : Nat) : Prop where
  enough : n ≤ b.payload.length
  noExcess : cfg.excess = .reject → b.payload.length = n

theorem Fits.of_ignore {cfg : Config} {b : Body} {n : Nat} (h : cfg.excess = .ignore) (hlen : n ≤ b.payload.length) : Fits cfg b n :=
  ⟨hlen, fun hreject => by rw [h] at hreject; cases hreject⟩

theorem Fits.of_length {cfg : Config} {b : Body} {n : Nat} (hlen : b.payload.length = n) : Fits cfg b n :=
  ⟨Nat.le_of_eq hlen.symm, fun _ => hlen⟩

section Runs

variable {s : State} {m : PacketType} {b : Body} {n : Nat}

/-- A well-formed frame whose payload fits the row delivers the record of the fields the row reads. -/
theorem exec_ofType_of_fits {r : Rec} (hb : b.wellFormed = true) (hfits : Fits s.cfg b n)
    (hread : readSchema s.cfg (frameBytes (s.cfg.typeCode.code m) b) (s.cfg.schema.row m) headerLen [] = .ok (r, headerLen + n)) :
    exec (Instr.ofType m b) s =
      .next (s.emit (.record (finishOf m b.channel ⟨s.cfg, frameBytes (s.cfg.typeCode.code m) b, [], r⟩))) := by
  refine exec_ofType_of_interpret_ok hb ?_
  rw [interpret, hread]
  refine if_neg fun ⟨hne, hreject⟩ => hne ?_
  rw [frameBytes_length, hfits.noExcess hreject]

/-- A well-formed frame whose payload ends before the row fails, under either policy. -/
theorem exec_ofType_of_short (hb : b.wellFormed = true) (hwidth : ∀ len, (s.cfg.schema.row m).width len = some n)
    (hshort : b.payload.length < n) : exec (Instr.ofType m b) s = .next (s.emit (.fail .layout)) := by
  refine exec_ofType_of_interpret_error hb ?_
  obtain ⟨-, hfail⟩ := readSchema_takes s.cfg (frameBytes (s.cfg.typeCode.code m) b) (hwidth _) headerLen []
  rw [frameBytes_length] at hfail
  rw [interpret, hfail (Nat.le_add_right _ _) (Nat.add_lt_add_left hshort _)]
  rfl

end Runs

/-! ## Address entries (20_memory.md R41) -/

/-- The fields of an entry of the two commands at a payload offset. -/
def naturalFields (p : List Byte) (o : Nat) : Rec :=
  [(.freqOffset, .nat (u8At p (o + 5))), (.addr4, .nat (u8At p (o + 4))), (.addr3, .nat (u8At p (o + 3))),
   (.addr2, .nat (u8At p (o + 2))), (.addr1, .nat (u8At p (o + 1))), (.addr0, .nat (u8At p o))]

/-- The fields of an entry of the report at a payload offset. -/
def reversedFields (p : List Byte) (o : Nat) : Rec :=
  [(.freqOffset, .nat (u8At p (o + 5))), (.addr0, .nat (u8At p (o + 4))), (.addr1, .nat (u8At p (o + 3))),
   (.addr2, .nat (u8At p (o + 2))), (.addr3, .nat (u8At p (o + 1))), (.addr4, .nat (u8At p o))]

theorem entryNatural_readsFields (cfg : Config) (t : Byte) (b : Body) :
    ReadsFields cfg t b Schema.entryNatural 6 (naturalFields b.payload) := by
  intro o ho
  simp (disch := omega) only [Schema.entryNatural, readSchema_u8_payload, Nat.add_assoc, Nat.reduceAdd]
  rfl

theorem entryReversed_readsFields (cfg : Config) (t : Byte) (b : Body) :
    ReadsFields cfg t b Schema.entryReversed 6 (reversedFields b.payload) := by
  intro o ho
  simp (disch := omega) only [Schema.entryReversed, readSchema_u8_payload, Nat.add_assoc, Nat.reduceAdd]
  rfl

/-- An entry whose fields are known by name, whatever their wire order. -/
theorem finishEntry_eq_entryOf {v : View} {a0 a1 a2 a3 a4 offset : Nat} (h0 : v.fields.nat? .addr0 = some a0)
    (h1 : v.fields.nat? .addr1 = some a1) (h2 : v.fields.nat? .addr2 = some a2) (h3 : v.fields.nat? .addr3 = some a3)
    (h4 : v.fields.nat? .addr4 = some a4) (hoffset : v.fields.nat? .freqOffset = some offset) :
    finishEntry v = entryOf [a0, a1, a2, a3, a4] offset := by
  simp [finishEntry, View.nat_of_nat? h0, View.nat_of_nat? h1, View.nat_of_nat? h2, View.nat_of_nat? h3, View.nat_of_nat? h4,
    View.nat_of_nat? hoffset, entryOf, addressEmpty, freqMhz, freqBaseMhz]

theorem finishEntry_of_naturalFields {v : View} {p : List Byte} {o : Nat} (h : v.fields = naturalFields p o) :
    finishEntry v = naturalEntryAt p o := by
  rw [naturalEntryAt]
  apply finishEntry_eq_entryOf <;> rw [h] <;> rfl

theorem finishEntry_of_reversedFields {v : View} {p : List Byte} {o : Nat} (h : v.fields = reversedFields p o) :
    finishEntry v = reversedEntryAt p o := by
  rw [reversedEntryAt]
  apply finishEntry_eq_entryOf <;> rw [h] <;> rfl

/-! ## Slots (30_encoding.md R70) -/

/-- The fields of a slot at a payload offset. -/
def slotFields (loadKind : Nat) (p : List Byte) (o : Nat) : Rec :=
  [(.error, .nat (u8At p (o + 22))), (.color, .bytes [byteAt p (o + 19), byteAt p (o + 20), byteAt p (o + 21)]),
   (.temperature, .nat (u16At p (o + 17))), (.setCurrent, .nat (u16At p (o + 15))), (.setVoltage, .nat (u16At p (o + 13))),
   (.inCurrent, .nat (u16At p (o + 11))), (.inVoltage, .nat (u16At p (o + 9))), (.outCurrent, .nat (u16At p (o + 7))),
   (.outVoltage, .nat (u16At p (o + 5))),
   (if u8At p (o + 1) = loadKind then .loadStatus else .psuStatus, .nat (u8At p (o + 4))),
   (.lock, .nat (u8At p (o + 3))), (.output, .nat (u8At p (o + 2))), (.deviceType, .nat (u8At p (o + 1))), (.online, .nat (u8At p o))]

theorem synthesizeSlot_readsFields (cfg : Config) (t : Byte) (b : Body) :
    ReadsFields cfg t b Schema.synthesizeSlot 23 (slotFields cfg.loadKind b.payload) := by
  intro o ho
  simp (disch := omega) only [Schema.synthesizeSlot, readSchema_u8_payload, Nat.add_assoc, Nat.reduceAdd]
  rw [readSchema_cond_payload (n := u8At b.payload (o + 1)) .loadKind .loadStatus .psuStatus _ rfl (by omega)]
  simp (disch := omega) only [readSchema_u8_payload, readSchema_u16_payload, readSchema_bytes3_payload, Nat.add_assoc, Nat.reduceAdd]
  rfl

theorem finishSlot_of_slotFields {v : View} {loadKind : Nat} {p : List Byte} {k : Nat} (hcfg : v.cfg.loadKind = loadKind)
    (h : v.fields = slotFields loadKind p (23 * k)) : finishSlot v = slotAt loadKind p k := by
  by_cases hload : u8At p (23 * k + 1) = loadKind <;>
    simp [finishSlot, finishStatus, slotAt, View.nat, View.bytes, Rec.nat?, Rec.bytes?, h, hcfg, slotFields, hload, flagOnline, flagOutput,
      flagLock]

/-! ## Records of one fixed layout -/

/-- The fields of `SET_V` and `SET_I` at a payload offset. -/
def milliPairFields (p : List Byte) (o : Nat) : Rec := [(.current, .nat (u16At p (o + 2))), (.voltage, .nat (u16At p o))]

/-- The field of `MACHINE` at a payload offset. -/
def machineFields (p : List Byte) (o : Nat) : Rec := [(.machineType, .nat (u8At p o))]

theorem voltageCurrent_readsFields (cfg : Config) (t : Byte) (b : Body) :
    ReadsFields cfg t b Schema.voltageCurrent 4 (milliPairFields b.payload) := by
  intro o ho
  simp (disch := omega) only [Schema.voltageCurrent, readSchema_u16_payload, Nat.add_assoc, Nat.reduceAdd]
  rfl

theorem machine_readsFields (cfg : Config) (t : Byte) (b : Body) :
    ReadsFields cfg t b Schema.machine 1 (machineFields b.payload) := by
  intro o ho
  rw [Schema.machine, readSchema_u8_payload .machineType .done ho]
  rfl

theorem done_readsFields (cfg : Config) (t : Byte) (b : Body) : ReadsFields cfg t b .done 0 fun _ => [] := fun _ _ => rfl

/-- The machine type byte decides the variant (41_validator_dispatch.md R141). -/
theorem machineRecord_eq (ch v : Byte) :
    Record.machine ch v.toNat (variantOf v.toNat) (hasDisplay v.toNat) =
      if v = 0x10 then .machine ch 0x10 .withDisplay true else .machine ch v.toNat .plain false := by
  by_cases hv : v = 0x10
  · subst hv
    rfl
  · have hne : v.toNat ≠ displayType := fun h => hv (BitVec.eq_of_toNat_eq h)
    have hvariant : variantOf v.toNat = .plain := if_neg hne
    have hdisplay : hasDisplay v.toNat = false := beq_eq_false_iff_ne.mpr hne
    rw [if_neg hv, hvariant, hdisplay]

section Rows

variable {s : State} {m : PacketType} {b : Body} {n : Nat} {rec : Nat → Rec}

/-- A row whose fields are known by offset: its fields at the payload's first byte are finished. -/
theorem exec_ofType_of_readsFields {sch : Schema} (hrow : s.cfg.schema.row m = sch)
    (hread : ReadsFields s.cfg (s.cfg.typeCode.code m) b sch n rec) (hb : b.wellFormed = true) (hfits : Fits s.cfg b n) :
    exec (Instr.ofType m b) s =
      .next (s.emit (.record (finishOf m b.channel ⟨s.cfg, frameBytes (s.cfg.typeCode.code m) b, [], rec 0⟩))) := by
  refine exec_ofType_of_fits hb hfits ?_
  have h0 := hread 0 (by have := hfits.enough; omega)
  rwa [Nat.zero_add, ← hrow] at h0

/-- A row that repeats one sub-record, with a record rule that finishes each of them. -/
theorem exec_ofType_of_rep {α : Type} {name : FieldName} {count w : Nat} {sub : Schema} {g : View → α} {element : Nat → α}
    {make : Byte → List α → Record} (hrow : s.cfg.schema.row m = .rep name count sub .done)
    (hread : ReadsFields s.cfg (s.cfg.typeCode.code m) b sub w rec) (hfinish : finishOf m = fun ch r => make ch (r.each name count g))
    (hg : ∀ u : View, u.cfg = s.cfg → ∀ k, u.fields = rec (w * k) → g u = element k) (hb : b.wellFormed = true)
    (hfits : Fits s.cfg b (w * count)) :
    exec (Instr.ofType m b) s = .next (s.emit (.record (make b.channel ((List.range count).map element)))) := by
  rw [exec_ofType_of_fits hb hfits (hrow ▸ hread.readSchema_rep name hfits.enough), hfinish]
  dsimp only
  rw [View.each_eq_map (rec := fun k => rec (w * k)) _ hg]
  simp [Rec.recs?]

theorem exec_synthesize_of_fits (hrow : s.cfg.schema.synthesize = Schema.synthesize) (hb : b.wellFormed = true) (hfits : Fits s.cfg b 138) :
    exec (.synthesize b) s =
      .next (s.emit (.record (.synthesize b.channel ((List.range 6).map (slotAt s.cfg.loadKind b.payload))))) :=
  exec_ofType_of_rep (m := .synthesize) hrow (synthesizeSlot_readsFields _ _ b) rfl
    (fun _ hcfg _ => finishSlot_of_slotFields (congrArg Config.loadKind hcfg)) hb hfits

theorem exec_addr_of_fits (hrow : s.cfg.schema.addr = Schema.addr) (hb : b.wellFormed = true) (hfits : Fits s.cfg b 36) :
    exec (.addr b) s =
      .next (s.emit (.record (.addr b.channel ((List.range 6).map fun k => reversedEntryAt b.payload (6 * k))))) :=
  exec_ofType_of_rep (m := .addr) hrow (entryReversed_readsFields _ _ b) rfl (fun _ _ _ => finishEntry_of_reversedFields) hb hfits

theorem exec_setAllAddr_of_fits (hrow : s.cfg.schema.setAllAddr = Schema.setAllAddr) (hb : b.wellFormed = true) (hfits : Fits s.cfg b 36) :
    exec (.setAllAddr b) s =
      .next (s.emit (.record (.setAllAddr b.channel ((List.range 6).map fun k => naturalEntryAt b.payload (6 * k))))) :=
  exec_ofType_of_rep (m := .setAllAddr) hrow (entryNatural_readsFields _ _ b) rfl (fun _ _ _ => finishEntry_of_naturalFields) hb hfits

theorem exec_setAddr_of_fits (hrow : s.cfg.schema.setAddr = Schema.entryNatural) (hb : b.wellFormed = true) (hfits : Fits s.cfg b 6) :
    exec (.setAddr b) s = .next (s.emit (.record (.setAddr b.channel (naturalEntryAt b.payload 0)))) := by
  refine (exec_ofType_of_readsFields (m := .setAddr) hrow (entryNatural_readsFields _ _ b) hb hfits).trans ?_
  rw [finishOf, finishSetAddr, finishEntry_of_naturalFields rfl]

theorem exec_machine_of_fits (hrow : s.cfg.schema.machine = Schema.machine) (hb : b.wellFormed = true) (hfits : Fits s.cfg b 1) :
    exec (.machine b) s = .next (s.emit (.record
      (if byteAt b.payload 0 = 0x10 then .machine b.channel 0x10 .withDisplay true
       else .machine b.channel (u8At b.payload 0) .plain false))) := by
  rw [u8At, ← machineRecord_eq]
  exact exec_ofType_of_readsFields (m := .machine) hrow (machine_readsFields _ _ b) hb hfits

theorem exec_setV_of_fits (hrow : s.cfg.schema.setV = Schema.voltageCurrent) (hb : b.wellFormed = true) (hfits : Fits s.cfg b 4) :
    exec (.setV b) s = .next (s.emit (.record (.setV b.channel (u16At b.payload 0) (milli (u16At b.payload 0))
      (u16At b.payload 2) (milli (u16At b.payload 2))))) :=
  exec_ofType_of_readsFields (m := .setV) hrow (voltageCurrent_readsFields _ _ b) hb hfits

theorem exec_setI_of_fits (hrow : s.cfg.schema.setI = Schema.voltageCurrent) (hb : b.wellFormed = true) (hfits : Fits s.cfg b 4) :
    exec (.setI b) s = .next (s.emit (.record (.setI b.channel (u16At b.payload 0) (milli (u16At b.payload 0))
      (u16At b.payload 2) (milli (u16At b.payload 2))))) :=
  exec_ofType_of_readsFields (m := .setI) hrow (voltageCurrent_readsFields _ _ b) hb hfits

theorem exec_heartbeat_of_fits (hrow : s.cfg.schema.heartbeat = .done) (hb : b.wellFormed = true) (hfits : Fits s.cfg b 0) :
    exec (.heartbeat b) s = .next (s.emit (.record (.heartbeat b.channel))) :=
  exec_ofType_of_readsFields (m := .heartbeat) hrow (done_readsFields _ _ b) hb hfits

end Rows

/-- Settles O25: under `ignore` a payload fits a row as soon as it has its bytes, and where it has fewer the row fails. -/
theorem ignorePolicyLeavesExcessOut : Obligations.IgnorePolicyLeavesExcessOut := by
  intro s b hschema hignore hb
  have hfits {n : Nat} (hlen : n ≤ b.payload.length) : Fits s.cfg b n := .of_ignore hignore hlen
  have hshort (m : PacketType) {n : Nat} (hwidth : ∀ len, (SchemaTable.default.row m).width len = some n) (hlen : b.payload.length < n) :
      exec (Instr.ofType m b) s = .next (s.emit (.fail .layout)) := exec_ofType_of_short hb (hschema ▸ hwidth) hlen
  exact ⟨exec_heartbeat_of_fits (congrArg SchemaTable.heartbeat hschema) hb (hfits (Nat.zero_le _)),
    fun h => exec_synthesize_of_fits (congrArg SchemaTable.synthesize hschema) hb (hfits h), hshort .synthesize fun _ => rfl,
    fun h => exec_addr_of_fits (congrArg SchemaTable.addr hschema) hb (hfits h), hshort .addr fun _ => rfl,
    fun h => exec_machine_of_fits (congrArg SchemaTable.machine hschema) hb (hfits h), hshort .machine fun _ => rfl,
    fun h => exec_setV_of_fits (congrArg SchemaTable.setV hschema) hb (hfits h), hshort .setV fun _ => rfl,
    fun h => exec_setI_of_fits (congrArg SchemaTable.setI hschema) hb (hfits h), hshort .setI fun _ => rfl,
    fun h => exec_setAddr_of_fits (congrArg SchemaTable.setAddr hschema) hb (hfits h), hshort .setAddr fun _ => rfl,
    fun h => exec_setAllAddr_of_fits (congrArg SchemaTable.setAllAddr hschema) hb (hfits h), hshort .setAllAddr fun _ => rfl⟩

end Sys2Proof.Machine
end

section
/-!
PROOFS. The reports (42_reports.md) and the types whose payload is raw (30_encoding.md R72): the fixed layouts at their exact length, the
wave, whose item count comes from the frame size (41_validator_dispatch.md R132), and the payloads that pass through (R133).
-/

namespace Sys2Proof.Machine

/-! ## Reports of one length -/

/-- Settles O14: a payload of 138 bytes fits the six slots exactly. -/
theorem synthesizeDecodesSixSlots : Obligations.SynthesizeDecodesSixSlots := fun _ _ hrow hb hlen =>
  exec_synthesize_of_fits hrow hb (.of_length hlen)

/-- Settles O17: a payload of 36 bytes fits the six entries exactly. -/
theorem addrReportReversesAddressBytes : Obligations.AddrReportReversesAddressBytes := fun _ _ hrow hb hlen =>
  exec_addr_of_fits hrow hb (.of_length hlen)

/-- Settles O20: a payload of one byte fits the row exactly, and that byte is the one at offset 0. -/
theorem machineDecodesVariant : Obligations.MachineDecodesVariant := by
  intro s b v hrow hb hpayload
  have hexec := exec_machine_of_fits hrow hb (.of_length (congrArg List.length hpayload))
  rwa [hpayload] at hexec

/-! ## Raw payloads -/

/-- A row that is `[ REST payload ]` passes the payload through, whatever its length. -/
theorem exec_ofType_of_restPayload {s : State} {m : PacketType} {b : Body} {make : Byte → List Byte → Record} (hb : b.wellFormed = true)
    (hfinish : finishOf m = finishRaw make) (hrow : s.cfg.schema.row m = Schema.restPayload) :
    exec (Instr.ofType m b) s = .next (s.emit (.record (make b.channel b.payload))) := by
  rw [exec_ofType_of_interpret_ok hb (hrow ▸ interpret_restPayload _ _), hfinish, finishRaw, View.bytes_of_bytes? rfl]
  rfl

/-- Settles O22: each of the ten types has the raw row and the raw finishing rule under its own constructor. -/
theorem rawPayloadTypesPassThrough : Obligations.RawPayloadTypesPassThrough := fun _ _ hb =>
  ⟨exec_ofType_of_restPayload (m := .updateCh) hb rfl, exec_ofType_of_restPayload (m := .setOutput) hb rfl,
    exec_ofType_of_restPayload (m := .getAddr) hb rfl, exec_ofType_of_restPayload (m := .setCh) hb rfl,
    exec_ofType_of_restPayload (m := .startAutoMatch) hb rfl, exec_ofType_of_restPayload (m := .stopAutoMatch) hb rfl,
    exec_ofType_of_restPayload (m := .resetToDfu) hb rfl, exec_ofType_of_restPayload (m := .rgb) hb rfl,
    exec_ofType_of_restPayload (m := .getMachine) hb rfl, exec_ofType_of_restPayload (m := .err) hb rfl⟩

/-! ## Waves (42_reports.md R151) -/

/-- The item counts the wave size table gives: one for each of its two keys. -/
theorem countBySize_waveSizeTable_eq_some_iff {len n : Nat} :
    countBySize waveSizeTable len = some n ↔ len = 126 ∧ n = 2 ∨ len = 206 ∧ n = 4 := by
  by_cases h126 : len = 126
  · subst h126
    simp [countBySize, waveSizeTable, eq_comm]
  · by_cases h206 : len = 206
    · subst h206
      simp [countBySize, waveSizeTable, eq_comm]
    · simp [countBySize, waveSizeTable, h126, h206, Ne.symm h126, Ne.symm h206]

/-- Settles O16: the size is no key of the table, so the first group already fails, before any excess byte could be left. -/
theorem waveOfOtherSizeFails : Obligations.WaveOfOtherSizeFails := by
  intro s b hrow hb h126 h206
  have hcount : countBySize waveSizeTable b.size.toNat = none := Option.eq_none_iff_forall_ne_some.mpr fun n hn =>
    (countBySize_waveSizeTable_eq_some_iff.mp hn).elim (h126 ·.1) (h206 ·.1)
  rw [← frameBytes_length_of_wellFormed hb (s.cfg.typeCode.code .wave)] at hcount
  have hfail := interpret_wave_of_no_count s.cfg hcount
  rw [← hrow] at hfail
  exact exec_ofType_of_interpret_error (m := .wave) hb hfail

section Waves

variable {cfg : Config} {t : Byte} {b : Body} {n : Nat}

theorem memRead_frameBytes_four (t : Byte) (b : Body) (o : Nat) : memRead (frameBytes t b) (headerLen + o) 4 = u32At b.payload o := by
  simp only [memRead_succ, memRead_zero, Nat.add_assoc, Nat.reduceAdd, byteAt_frameBytes_payload, u32At, u8At]
  omega

theorem readSchema_u32_payload {o : Nat} {r : Rec} (name : FieldName) (next : Schema) (h : o + 4 ≤ b.payload.length) :
    readSchema cfg (frameBytes t b) (.u32 name next) (headerLen + o) r =
      readSchema cfg (frameBytes t b) next (headerLen + (o + 4)) ((name, .nat (u32At b.payload o)) :: r) := by
  rw [readSchema, need_payload h, memRead_frameBytes_four]
  rfl

/-- The fields of a wave group of `n` items at a payload offset. -/
def groupFields (p : List Byte) (n o : Nat) : Rec :=
  [(.items, .recs ((List.range n).map fun j => milliPairFields p (o + 4 + 4 * j))), (.timestamp, .nat (u32At p o))]

/-- The sub-schema of a wave group (30_encoding.md R70); its items have the layout of `SET_V`. -/
def waveGroupSchema : Schema := .u32 .timestamp <| .repBySize .items waveSizeTable Schema.voltageCurrent .done

theorem schema_wave_eq : Schema.wave = .rep .groups 10 waveGroupSchema .done := rfl

/-- A group takes its timestamp and as many items as the frame size says. -/
theorem waveGroupSchema_readsFields (hcount : countBySize waveSizeTable (frameBytes t b).length = some n) :
    ReadsFields cfg t b waveGroupSchema (4 + 4 * n) (groupFields b.payload n) := by
  intro o ho
  have hitem (j : Nat) (hj : j < n) := voltageCurrent_readsFields cfg t b (o + 4 + 4 * j) (by omega)
  have hitems := readMany_eq_map (readOne := fun p => readSchema cfg (frameBytes t b) Schema.voltageCurrent p []) n (o + 4) hitem
  rw [waveGroupSchema, readSchema_u32_payload .timestamp _ (by omega), ← Nat.add_assoc o 4]
  simp only [readSchema, hcount, hitems]
  rfl

theorem finishItem_of_milliPairFields {v : View} {p : List Byte} {g j : Nat}
    (h : v.fields = milliPairFields p (g * (4 + 4 * n) + 4 + 4 * j)) : finishItem v = waveItemAt p n g j := by
  have hvoltage : v.fields.nat? .voltage = some (u16At p (g * (4 + 4 * n) + 4 + 4 * j)) := h ▸ rfl
  have hcurrent : v.fields.nat? .current = some (u16At p (g * (4 + 4 * n) + 4 + 4 * j + 2)) := h ▸ rfl
  rw [finishItem, View.nat_of_nat? hvoltage, View.nat_of_nat? hcurrent, waveItemAt]

theorem finishGroup_of_groupFields {v : View} {p : List Byte} {g : Nat} (h : v.fields = groupFields p n (g * (4 + 4 * n))) :
    finishGroup v = waveGroupAt p n g := by
  have hitems : v.fields.recs? .items = some ((List.range n).map fun j => milliPairFields p (g * (4 + 4 * n) + 4 + 4 * j)) := h ▸ rfl
  have htimestamp : v.fields.nat? .timestamp = some (u32At p (g * (4 + 4 * n))) := h ▸ rfl
  rw [finishGroup, waveGroupAt, View.nat_of_nat? htimestamp, View.count_of_recs? hitems, List.length_map, List.length_range,
    View.each_eq_map hitems fun _ _ _ => finishItem_of_milliPairFields]

/-- The record of a wave whose ten groups are known from their fields: the item count is that of group 0. -/
theorem finishWave_of_groupFields {ch : Byte} {v : View} {p : List Byte}
    (h : v.fields = [(.groups, .recs ((List.range 10).map fun g => groupFields p n ((4 + 4 * n) * g)))]) :
    finishWave ch v = .wave ch n ((List.range 10).map (waveGroupAt p n)) := by
  have hgroups : v.fields.recs? .groups = some ((List.range 10).map fun g => groupFields p n ((4 + 4 * n) * g)) := h ▸ rfl
  have hfirst : (v.sub .groups 0).fields.recs? .items = some ((List.range n).map fun j => milliPairFields p (0 + 4 + 4 * j)) := by
    rw [View.sub_fields hgroups]
    rfl
  rw [finishWave, View.count_of_recs? hfirst, List.length_map, List.length_range, nWaveGroups,
    View.each_eq_map hgroups fun _ _ g hg => finishGroup_of_groupFields (g := g) (by rw [hg, Nat.mul_comm])]

end Waves

/-- Settles O15: either key of the table is the length of a header and ten groups of its item count. -/
theorem waveDecodesTenGroups : Obligations.WaveDecodesTenGroups := by
  intro s b n hrow hb hsize
  have hlen := frameBytes_length_of_wellFormed hb (s.cfg.typeCode.code .wave)
  have hcount : countBySize waveSizeTable (frameBytes (s.cfg.typeCode.code .wave) b).length = some n := by
    rw [hlen]
    exact countBySize_waveSizeTable_eq_some_iff.mpr hsize
  have hpayload : b.payload.length = (4 + 4 * n) * 10 := by
    rw [frameBytes_length, headerLen] at hlen
    omega
  have hread := (waveGroupSchema_readsFields (cfg := s.cfg) hcount).readSchema_rep .groups (Nat.le_of_eq hpayload.symm)
  rw [← schema_wave_eq, ← hrow] at hread
  refine (exec_ofType_of_fits (m := .wave) hb (.of_length hpayload) hread).trans ?_
  rw [finishOf, finishWave_of_groupFields rfl]

end Sys2Proof.Machine
end

section
/-!
PROOFS. The commands (43_commands.md): the fixed layouts at their exact length, and what decoding leaves unchanged (R184).
-/

namespace Sys2Proof.Machine

/-! ## Commands of one length -/

/-- Settles O18: payloads of 6 and 36 bytes fit one entry and six exactly. -/
theorem addressCommandsKeepByteOrder : Obligations.AddressCommandsKeepByteOrder :=
  ⟨fun _ _ hrow hb hlen => exec_setAddr_of_fits hrow hb (.of_length hlen),
    fun _ _ hrow hb hlen => exec_setAllAddr_of_fits hrow hb (.of_length hlen)⟩

/-- Settles O19: a payload of 4 bytes fits the two 16-bit values exactly. -/
theorem voltageAndCurrentCommandsDecode : Obligations.VoltageAndCurrentCommandsDecode :=
  ⟨fun _ _ hrow hb hlen => exec_setV_of_fits hrow hb (.of_length hlen),
    fun _ _ hrow hb hlen => exec_setI_of_fits hrow hb (.of_length hlen)⟩

/-- Settles O21: an empty payload fits the row without fields exactly. -/
theorem heartbeatDecodes : Obligations.HeartbeatDecodes := fun _ _ hrow hb hpayload =>
  exec_heartbeat_of_fits hrow hb (.of_length (congrArg List.length hpayload))

/-! ## Frame (43_commands.md R184) -/

@[simp] theorem State.emit_readStream (s : State) (e : Event) (k : Nat) : (s.emit e).readStream k = s.readStream k := rfl

/-- Settles O26: the next state is the old one with one event emitted, and `emit` writes only the output. -/
theorem instructionsChangeOnlyTheOutput : Obligations.InstructionsChangeOnlyTheOutput := by
  intro i s t h
  obtain ⟨e, he⟩ := exec_eq_emit i s
  obtain rfl : t = s.emit e := Host.Outcome.next.inj (h.symm.trans he)
  exact ⟨s.emit_buf e, s.emit_readStream e, s.emit_cfg e, s.emit_inbox e, e, s.emit_events e⟩

end Sys2Proof.Machine
end

section
/-!
PROOFS. The Packet Encoder, part by part (44_encoder_boundary.md R201 to R205): the frames it builds, the rounding of volts and amperes, and
the address parameters it refuses.
-/

namespace Sys2Proof

/-! ## Built frames (44_encoder_boundary.md R201) -/

/-- The size and checksum bytes of a built body are right, whatever its payload of up to 249 bytes. -/
theorem Body.ofPayload_wellFormed (channel : Byte) {payload : List Byte} (h : payload.length ≤ 249) :
    (Body.ofPayload channel payload).wellFormed = true := by
  refine (Body.wellFormed_iff _).mpr ⟨?_, rfl⟩
  rw [Body.ofPayload, headerLen, BitVec.toNat_ofNat, Nat.mod_eq_of_lt (by omega)]

theorem decode_makeFrame {cfg : Config} (hc : cfg.typeCode.injective = true) (m : PacketType) (channel : Byte) (payload : List Byte) :
    decode cfg (makeFrame (cfg.typeCode.code m) channel payload) = .ok (Instr.ofType m (Body.ofPayload channel payload)) := by
  rw [makeFrame, decode_frameBytes, dispatch_of_some (TypeCodes.typeOf?_code hc m)]

/-- Settles O4: the frame is the bytes of a well-formed body under the code of its type. -/
theorem builtFramesAreWellFormed : Obligations.BuiltFramesAreWellFormed := by
  intro cfg m channel payload hc hlen
  refine ⟨decode_makeFrame hc m channel payload, ?_, Machine.frameBytes_length _ _⟩
  rw [Instr.wellFormed, Instr.body_ofType, Instr.typeOk_ofType, Body.ofPayload_wellFormed channel hlen]
  rfl

end Sys2Proof

namespace Sys2Proof.Machine

/-! ## Rounding (44_encoder_boundary.md R203) -/

/-- The nearest milli-unit of a rational that is not negative, ties away from zero, as one division of natural numbers. -/
def nearestMilli (x : Rat) : Nat := (2000 * x.num.toNat + x.den) / (2 * x.den)

/-- The nearest milli-unit is `floor(1000 x + 1/2)`: the greatest natural number that is not above it (44_encoder_boundary.md R203). -/
theorem le_nearestMilli_iff {x : Rat} (h : 0 ≤ x) (k : Nat) : k ≤ nearestMilli x ↔ (k : Rat) ≤ 1000 * x + 1 / 2 := by
  have hden : (0 : Rat) < x.den := Rat.natCast_pos.mpr x.den_pos
  have hnum : x * x.den = (x.num.toNat : Rat) := by
    rw [← Rat.intCast_natCast x.num.toNat, Int.toNat_of_nonneg (Rat.num_nonneg.mpr h)]
    calc x * x.den
      _ = (x.num / x.den : Rat) * x.den := by rw [← Rat.mkRat_eq_div, Rat.mkRat_self]
      _ = x.num := Rat.div_mul_cancel (Rat.ne_of_gt hden)
  calc k ≤ nearestMilli x
    _ ↔ k * (2 * x.den) ≤ 2000 * x.num.toNat + x.den := Nat.le_div_iff_mul_le (Nat.mul_pos Nat.two_pos x.den_pos)
    _ ↔ 2 * (k : Rat) * x.den ≤ (2000 * x + 1) * x.den := by
      rw [← Rat.natCast_le_natCast]
      grind
    _ ↔ 2 * (k : Rat) ≤ 2000 * x + 1 := by
      rw [← Rat.not_lt, Rat.mul_lt_mul_right hden, Rat.not_lt]
    _ ↔ (k : Rat) ≤ 1000 * x + 1 / 2 := by grind

/-- The least rational that does not fit is the least that rounds to 65536. -/
theorem packable_iff (x : Rat) : packable x ↔ 0 ≤ x ∧ nearestMilli x ≤ 65535 := by
  refine and_congr_right fun h => ?_
  rw [← Nat.lt_succ_iff, ← Nat.not_le, le_nearestMilli_iff h]
  grind

theorem milliRaw_of_packable {x : Rat} (h : packable x) : milliRaw x = .ok (nearestMilli x) := by
  obtain ⟨hpos, hmax⟩ := (packable_iff x).mp h
  rw [milliRaw, if_neg (Int.not_lt.mpr (Rat.num_nonneg.mpr hpos))]
  exact if_pos hmax

theorem milliRaw_of_not_packable {x : Rat} (h : ¬ packable x) : milliRaw x = .error .outOfRange := by
  rw [milliRaw]
  split
  next => rfl
  next hnum =>
    have hpos : 0 ≤ x := Rat.num_nonneg.mp (Int.not_lt.mp hnum)
    exact if_neg fun hmax => h ((packable_iff x).mpr ⟨hpos, hmax⟩)

theorem milliRaw_eq_ok_iff {x : Rat} {raw : Nat} : milliRaw x = .ok raw ↔ packable x ∧ nearestMilli x = raw := by
  by_cases h : packable x
  · simp [milliRaw_of_packable h, h]
  · simp [milliRaw_of_not_packable h, h]

/-- Rounding down after adding half a unit moves a value by at most half a unit. -/
theorem nearestMilli_near {x : Rat} (h : 0 ≤ x) :
    (nearestMilli x : Rat) / 1000 ≤ x + 1 / 2000 ∧ x < (nearestMilli x : Rat) / 1000 + 1 / 2000 := by
  have hle := (le_nearestMilli_iff h (nearestMilli x)).mp (Nat.le_refl _)
  have hlt := mt (le_nearestMilli_iff h (nearestMilli x + 1)).mpr (Nat.not_succ_le_self _)
  rw [Rat.natCast_add] at hlt
  constructor <;> grind

/-- Settles O59: a value is packed exactly where it is packable, as its nearest milli-unit. -/
theorem roundingIsWithinHalfAQuantum : Obligations.RoundingIsWithinHalfAQuantum := by
  intro x
  refine ⟨fun h => ⟨_, milliRaw_of_packable h⟩, fun raw h => ?_, milliRaw_of_not_packable⟩
  obtain ⟨hx, rfl⟩ := milliRaw_eq_ok_iff.mp h
  obtain ⟨hpos, hmax⟩ := (packable_iff x).mp hx
  exact ⟨hpos, hmax, nearestMilli_near hpos⟩

/-! ## Address parameters (44_encoder_boundary.md R204, R205) -/

theorem packScalar_one {r : Rec} {name : FieldName} {b : Byte} (h : r.nat? name = some b.toNat) : packScalar r name 1 = some [b] := by
  have hlt : b.toNat < 256 := b.isLt
  simp [packScalar, h, hlt, leBytes]

theorem entryFields_of_length_ne {address : List Byte} (h : address.length ≠ 5) (offset : Byte) :
    entryFields address offset = .error .addressLength := by
  unfold entryFields
  split
  next => exact absurd rfl h
  next => rfl

/-- The fields of an entry whose address has its five bytes are there, and the schema of the two commands packs them as they are given. -/
theorem exists_entryFields {address : List Byte} (h : address.length = 5) (offset : Byte) :
    ∃ r, entryFields address offset = .ok r ∧ ∀ cfg, serialize cfg Schema.entryNatural r = some (address ++ [offset]) := by
  match address, h with
  | [a0, a1, a2, a3, a4], _ =>
  refine ⟨_, rfl, fun cfg => ?_⟩
  simp only [Schema.entryNatural, serialize]
  rw [packScalar_one (b := a0) rfl, packScalar_one (b := a1) rfl, packScalar_one (b := a2) rfl, packScalar_one (b := a3) rfl,
    packScalar_one (b := a4) rfl, packScalar_one (b := offset) rfl]
  rfl

theorem entriesFields_cons (e : List Byte × Byte) (es : List (List Byte × Byte)) :
    entriesFields (e :: es) = (entryFields e.1 e.2).bind fun r => (entriesFields es).bind fun rs => .ok (r :: rs) := rfl

theorem entriesFields_of_mem_length_ne {es : List (List Byte × Byte)} (h : ∃ e, e ∈ es ∧ e.1.length ≠ 5) :
    entriesFields es = .error .addressLength := by
  induction es with
  | nil => simp at h
  | cons e es ih =>
    rw [entriesFields_cons]
    by_cases hlen : e.1.length = 5
    · obtain ⟨r, hr, -⟩ := exists_entryFields hlen e.2
      rw [hr, ih (by simpa [hlen] using h)]
      rfl
    · rw [entryFields_of_length_ne hlen]
      rfl

theorem encodeIntent_setAddr (cfg : Config) (address : List Byte) (offset channel : Byte) :
    encodeIntent cfg (.setAddr address offset channel) = (entryFields address offset).bind (encodeFields cfg .setAddr channel) := rfl

theorem encodeIntent_setAllAddr (cfg : Config) {entries : List (List Byte × Byte)} (h : entries.length = 6) (channel : Byte) :
    encodeIntent cfg (.setAllAddr entries channel) =
      (entriesFields entries).bind fun rs => encodeFields cfg .setAllAddr channel [(.entries, .recs rs)] := if_pos h

theorem encodeIntent_setAllAddr_of_length_ne (cfg : Config) {entries : List (List Byte × Byte)} (h : entries.length ≠ 6) (channel : Byte) :
    encodeIntent cfg (.setAllAddr entries channel) = .error .entryCount := if_neg h

/-- Settles O60: the count is compared first, and an address of wrong length ends the list of fields before any frame is built. -/
theorem badAddressParametersYieldNoFrame : Obligations.BadAddressParametersYieldNoFrame := by
  intro cfg channel
  refine ⟨fun address offset h => ?_, fun entries h => encodeIntent_setAllAddr_of_length_ne cfg h channel, fun entries hcount h => ?_⟩
  · rw [encodeIntent_setAddr, entryFields_of_length_ne h]
    rfl
  · rw [encodeIntent_setAllAddr cfg hcount, entriesFields_of_mem_length_ne h]
    rfl

end Sys2Proof.Machine
end

section
/-!
PROOFS. The round trip of the Packet Encoder (44_encoder_boundary.md R207): what the schema row packs for each family of intents, and that
the decoder reads it back. Decoding a built frame goes through the records by payload offset (43_commands.md R173 to R182).
-/

namespace Sys2Proof

theorem Config.injective_of_wellFormed {cfg : Config} (h : cfg.wellFormed = true) : cfg.typeCode.injective = true := by
  simp only [Config.wellFormed, Bool.and_eq_true] at h
  obtain ⟨⟨-, hinjective⟩, -⟩ := h
  exact hinjective

end Sys2Proof

namespace Sys2Proof.Machine

/-! ## Frames and their records -/

/-- The encoder's answer for valid parameters is a frame, and running whatever frame it is delivers the intended record. -/
def RoundTrips (s : State) (valid : Prop) (answer : Except EncodeError (List Byte)) (intended : Option Record) : Prop :=
  (valid → ∃ f, answer = .ok f) ∧ ∀ f, answer = .ok f → ∃ r, intended = some r ∧ runFrame f s = .next (s.emit (.record r))

section RoundTrip

variable {s : State} {valid : Prop} {intended : Option Record} {m : PacketType} {ch : Byte}

/-- A call with invalid parameters owes nothing where it yields no frame. -/
theorem RoundTrips.of_error {e : EncodeError} (h : ¬ valid) : RoundTrips s valid (.error e) intended :=
  ⟨fun hv => absurd hv h, fun _ hf => nomatch hf⟩

/-- Running a built frame runs the well-formed instruction of its type. -/
theorem runFrame_makeFrame (hc : s.cfg.typeCode.injective = true) (m : PacketType) (ch : Byte) (payload : List Byte) :
    runFrame (makeFrame (s.cfg.typeCode.code m) ch payload) s = exec (Instr.ofType m (Body.ofPayload ch payload)) s := by
  rw [runFrame, decode_makeFrame hc]

/-- Fields that the row packs into a payload make the round trip where the well-formed instruction with that payload delivers the record. -/
theorem RoundTrips.of_serialize {fields : Rec} {payload : List Byte} {r : Record} (hc : s.cfg.typeCode.injective = true)
    (hs : serialize s.cfg (s.cfg.schema.row m) fields = some payload) (hlen : valid → payload.length ≤ maxPayload)
    (hexec : (Body.ofPayload ch payload).wellFormed = true →
      exec (Instr.ofType m (Body.ofPayload ch payload)) s = .next (s.emit (.record r))) :
    RoundTrips s valid (encodeFields s.cfg m ch fields) (some r) := by
  have hanswer : encodeFields s.cfg m ch fields =
      if payload.length ≤ maxPayload then .ok (makeFrame (s.cfg.typeCode.code m) ch payload) else .error .payloadTooLong := by
    rw [encodeFields, hs]
  by_cases hfits : payload.length ≤ maxPayload
  · rw [hanswer, if_pos hfits]
    refine ⟨fun _ => ⟨_, rfl⟩, fun f hf => ⟨r, rfl, ?_⟩⟩
    cases hf
    rw [runFrame_makeFrame hc, hexec (Body.ofPayload_wellFormed ch hfits)]
  · rw [hanswer, if_neg hfits]
    exact .of_error (mt hlen hfits)

/-! ## Raw payloads (44_encoder_boundary.md R206) -/

theorem serialize_restPayload (cfg : Config) (p : List Byte) : serialize cfg Schema.restPayload [(.payload, .bytes p)] = some p :=
  congrArg some (List.append_nil p)

theorem rawPayload_roundTrips {make : Byte → List Byte → Record} {p : List Byte} (hc : s.cfg.typeCode.injective = true)
    (hrow : s.cfg.schema.row m = Schema.restPayload) (hfinish : finishOf m = finishRaw make) :
    RoundTrips s (p.length ≤ maxPayload) (encodeFields s.cfg m ch [(.payload, .bytes p)]) (some (make ch p)) :=
  .of_serialize hc (hrow ▸ serialize_restPayload s.cfg p) id fun hb => exec_ofType_of_restPayload hb hfinish hrow

theorem heartbeat_roundTrips (hc : s.cfg.typeCode.injective = true) (hrow : s.cfg.schema.row .heartbeat = .done) :
    RoundTrips s valid (encodeFields s.cfg .heartbeat ch []) (some (.heartbeat ch)) :=
  .of_serialize (m := .heartbeat) (payload := []) hc (hrow ▸ rfl) (fun _ => Nat.zero_le _) fun hb => exec_heartbeat_of_fits hrow hb (.of_length rfl)

/-! ## Volts and amperes (44_encoder_boundary.md R203) -/

/-- A number of 16 bits is read back from where it was packed. -/
theorem u16At_leBytes_append {v : Nat} (h : v ≤ 65535) (q : List Byte) : u16At (leBytes 2 v ++ q) 0 = v :=
  calc u16At (leBytes 2 v ++ q) 0
    _ = leValue (leBytes 2 v) := rfl
    _ = v := by rw [leValue_leBytes, Nat.mod_eq_of_lt (by omega)]

theorem packScalar_two {r : Rec} {name : FieldName} {v : Nat} (h : r.nat? name = some v) (hv : v ≤ 65535) :
    packScalar r name 2 = some (leBytes 2 v) := by
  rw [packScalar, h]
  exact if_pos (Nat.lt_succ_of_le hv)

theorem serialize_voltageCurrent (cfg : Config) {v a : Nat} (hv : v ≤ 65535) (ha : a ≤ 65535) :
    serialize cfg Schema.voltageCurrent [(.voltage, .nat v), (.current, .nat a)] = some (leBytes 2 v ++ leBytes 2 a) := by
  rw [Schema.voltageCurrent, serialize, serialize, packScalar_two (v := v) rfl hv, packScalar_two (v := a) rfl ha]
  rfl

theorem voltageCurrentFields_of_packable {x y : Rat} (hx : packable x) (hy : packable y) :
    voltageCurrentFields x y = .ok [(.voltage, .nat (nearestMilli x)), (.current, .nat (nearestMilli y))] := by
  rw [voltageCurrentFields, milliRaw_of_packable hx, milliRaw_of_packable hy]
  rfl

theorem voltageCurrentFields_of_not_packable {x y : Rat} (h : ¬ (packable x ∧ packable y)) :
    voltageCurrentFields x y = .error .outOfRange := by
  by_cases hx : packable x
  · rw [voltageCurrentFields, milliRaw_of_packable hx, milliRaw_of_not_packable fun hy => h ⟨hx, hy⟩]
    rfl
  · rw [voltageCurrentFields, milliRaw_of_not_packable hx]
    rfl

/-- The two commands of volts and amperes, by what their row delivers: the record has the nearest milli-units of both parameters. -/
theorem milliPair_roundTrips {make : Byte → Nat → Nat → Record} {x y : Rat} (hc : s.cfg.typeCode.injective = true)
    (hrow : s.cfg.schema.row m = Schema.voltageCurrent)
    (hexec : ∀ b : Body, b.wellFormed = true → Fits s.cfg b 4 →
      exec (Instr.ofType m b) s = .next (s.emit (.record (make b.channel (u16At b.payload 0) (u16At b.payload 2)))))
    (hintended : packable x → packable y → intended = some (make ch (nearestMilli x) (nearestMilli y))) :
    RoundTrips s (packable x ∧ packable y) ((voltageCurrentFields x y).bind (encodeFields s.cfg m ch)) intended := by
  by_cases h : packable x ∧ packable y
  · obtain ⟨hx, hy⟩ := h
    obtain ⟨-, hv⟩ := (packable_iff x).mp hx
    obtain ⟨-, ha⟩ := (packable_iff y).mp hy
    rw [voltageCurrentFields_of_packable hx hy, hintended hx hy]
    refine .of_serialize hc (hrow ▸ serialize_voltageCurrent s.cfg hv ha) (fun _ => by simp [maxPayload]) fun hb => ?_
    have hvolts := u16At_leBytes_append hv (leBytes 2 (nearestMilli y))
    have hamperes : u16At (leBytes 2 (nearestMilli x) ++ leBytes 2 (nearestMilli y)) 2 = nearestMilli y :=
      u16At_leBytes_append ha []
    have hrun := hexec _ hb (.of_length rfl)
    rwa [Body.ofPayload, hvolts, hamperes] at hrun
  · rw [voltageCurrentFields_of_not_packable h]
    exact .of_error h

/-! ## Address entries (44_encoder_boundary.md R204) -/

/-- The six bytes of an address entry on the wire. -/
def entryBytes (e : List Byte × Byte) : List Byte := e.1 ++ [e.2]

theorem entryBytes_length {e : List Byte × Byte} (h : e.1.length = 5) : (entryBytes e).length = 6 := by
  rw [entryBytes, List.length_append, h]
  rfl

theorem naturalEntryAt_entryBytes_append {e : List Byte × Byte} (h : e.1.length = 5) (q : List Byte) :
    naturalEntryAt (entryBytes e ++ q) 0 = intendedEntry e := by
  obtain ⟨address, offset⟩ := e
  match address, h with
  | [_, _, _, _, _], _ => rfl

theorem naturalEntryAt_append {p : List Byte} (h : p.length = 6) (q : List Byte) (o : Nat) :
    naturalEntryAt (p ++ q) (6 + o) = naturalEntryAt q o := by
  have hbyte (k : Nat) : byteAt (p ++ q) (6 + k) = byteAt q k := by
    rw [byteAt, List.getElem?_append_right (by omega), h, Nat.add_sub_cancel_left, byteAt]
  simp only [naturalEntryAt, u8At, Nat.add_assoc, hbyte]

/-- Entries packed one behind the other are read back in their order. -/
theorem map_naturalEntryAt_flatMap_entryBytes {es : List (List Byte × Byte)} (h : ∀ e, e ∈ es → e.1.length = 5) :
    (List.range es.length).map (fun k => naturalEntryAt (es.flatMap entryBytes) (6 * k)) = es.map intendedEntry := by
  induction es with
  | nil => rfl
  | cons e es ih =>
    obtain ⟨he, hes⟩ := List.forall_mem_cons.mp h
    have hnext (k : Nat) :
        naturalEntryAt (entryBytes e ++ es.flatMap entryBytes) (6 * (k + 1)) = naturalEntryAt (es.flatMap entryBytes) (6 * k) := by
      rw [Nat.mul_succ, Nat.add_comm, naturalEntryAt_append (entryBytes_length he)]
    rw [List.length_cons, List.range_succ_eq_map, List.map_cons, List.map_map, List.flatMap_cons, List.map_cons, ← ih hes]
    exact List.cons_eq_cons.mpr ⟨naturalEntryAt_entryBytes_append he _, List.map_congr_left fun k _ => hnext k⟩

theorem flatMap_entryBytes_length {es : List (List Byte × Byte)} (h : ∀ e, e ∈ es → e.1.length = 5) :
    (es.flatMap entryBytes).length = 6 * es.length := by
  induction es with
  | nil => rfl
  | cons e es ih =>
    obtain ⟨he, hes⟩ := List.forall_mem_cons.mp h
    rw [List.flatMap_cons, List.length_append, entryBytes_length he, ih hes, List.length_cons]
    omega

/-- The fields of entries whose addresses have their five bytes are there, and the schema packs each as it is given. -/
theorem exists_entriesFields {es : List (List Byte × Byte)} (h : ∀ e, e ∈ es → e.1.length = 5) :
    ∃ rs, entriesFields es = .ok rs ∧ rs.length = es.length ∧
      ∀ cfg, mapAll (fun q => serialize cfg Schema.entryNatural q) rs = some (es.map entryBytes) := by
  induction es with
  | nil => exact ⟨[], rfl, rfl, fun _ => rfl⟩
  | cons e es ih =>
    obtain ⟨he, hes⟩ := List.forall_mem_cons.mp h
    obtain ⟨r, hr, hbytes⟩ := exists_entryFields he e.2
    obtain ⟨rs, hrs, hlen, hall⟩ := ih hes
    refine ⟨r :: rs, ?_, congrArg Nat.succ hlen, fun cfg => ?_⟩
    · rw [entriesFields_cons, hr, hrs]
      rfl
    · rw [mapAll, hbytes, hall]
      rfl

theorem serialize_setAllAddr {cfg : Config} {es : List (List Byte × Byte)} {rs : List Rec} (hlen : rs.length = 6)
    (hall : mapAll (fun q => serialize cfg Schema.entryNatural q) rs = some (es.map entryBytes)) :
    serialize cfg Schema.setAllAddr [(.entries, .recs rs)] = some (es.flatMap entryBytes) := by
  have hrecs : Rec.recs? [(.entries, .recs rs)] .entries = some rs := rfl
  rw [Schema.setAllAddr, nChannels, serialize, hrecs, Option.bind_some, if_pos hlen, hall, serialize]
  exact congrArg some ((List.append_nil _).trans List.flatMap_def.symm)

theorem setAddr_roundTrips {address : List Byte} {offset : Byte} (hc : s.cfg.typeCode.injective = true)
    (hrow : s.cfg.schema.row .setAddr = Schema.entryNatural) :
    RoundTrips s (address.length = 5) (encodeIntent s.cfg (.setAddr address offset ch))
      (some (.setAddr ch (intendedEntry (address, offset)))) := by
  rw [encodeIntent_setAddr]
  by_cases h : address.length = 5
  · obtain ⟨r, hr, hbytes⟩ := exists_entryFields h offset
    have hlen := entryBytes_length (e := (address, offset)) h
    have hentry := naturalEntryAt_entryBytes_append (e := (address, offset)) h []
    rw [List.append_nil] at hentry
    rw [hr, ← hentry]
    exact .of_serialize (m := .setAddr) hc (hrow ▸ hbytes s.cfg) (fun _ => hlen ▸ by decide)
      fun hb => exec_setAddr_of_fits hrow hb (.of_length hlen)
  · rw [entryFields_of_length_ne h]
    exact .of_error h

theorem setAllAddr_roundTrips {es : List (List Byte × Byte)} (hc : s.cfg.typeCode.injective = true)
    (hrow : s.cfg.schema.row .setAllAddr = Schema.setAllAddr) :
    RoundTrips s (es.length = 6 ∧ ∀ e, e ∈ es → e.1.length = 5) (encodeIntent s.cfg (.setAllAddr es ch))
      (some (.setAllAddr ch (es.map intendedEntry))) := by
  by_cases hcount : es.length = 6
  · rw [encodeIntent_setAllAddr _ hcount]
    by_cases h : ∀ e, e ∈ es → e.1.length = 5
    · obtain ⟨rs, hrs, hlen, hall⟩ := exists_entriesFields h
      have hpayload : (es.flatMap entryBytes).length = 36 := by rw [flatMap_entryBytes_length h, hcount]
      rw [hrs, ← map_naturalEntryAt_flatMap_entryBytes h, hcount]
      exact .of_serialize (m := .setAllAddr) hc (hrow ▸ serialize_setAllAddr (hlen.trans hcount) (hall s.cfg))
        (fun _ => hpayload ▸ by decide) fun hb => exec_setAllAddr_of_fits hrow hb (.of_length hpayload)
    · rw [entriesFields_of_mem_length_ne (by simpa using h)]
      exact .of_error fun hvalid => h hvalid.2
  · rw [encodeIntent_setAllAddr_of_length_ne _ hcount]
    exact .of_error fun hvalid => hcount hvalid.1

end RoundTrip

/-! ## Every intent -/

/-- Settles O58, by the intent: raw payloads, two milli-values, one address entry, six of them, or nothing. -/
theorem encodedIntentsDecodeToTheirRecord : Obligations.EncodedIntentsDecodeToTheirRecord := by
  intro s x hwf hschema
  have hc := Config.injective_of_wellFormed hwf
  have hrow (m : PacketType) : s.cfg.schema.row m = SchemaTable.default.row m := congrArg (·.row m) hschema
  change RoundTrips s x.valid (encodeIntent s.cfg x) x.record?
  cases x with
  | setCh | setOutput | getMachine | getAddr | rgb | startAutoMatch | stopAutoMatch | resetToDfu =>
    exact rawPayload_roundTrips hc (hrow _) rfl
  | heartbeat => exact heartbeat_roundTrips hc (hrow .heartbeat)
  | setV volts amperes ch =>
    refine milliPair_roundTrips (m := .setV) (make := fun ch v a => .setV ch v (milli v) a (milli a)) hc (hrow .setV)
      (fun _ hb hfits => exec_setV_of_fits (hrow .setV) hb hfits) fun hx hy => ?_
    rw [Intent.record?, milliRaw_of_packable hx, milliRaw_of_packable hy]
  | setI volts amperes ch =>
    refine milliPair_roundTrips (m := .setI) (make := fun ch v a => .setI ch v (milli v) a (milli a)) hc (hrow .setI)
      (fun _ hb hfits => exec_setI_of_fits (hrow .setI) hb hfits) fun hx hy => ?_
    rw [Intent.record?, milliRaw_of_packable hx, milliRaw_of_packable hy]
  | setAddr => exact setAddr_roundTrips hc (hrow .setAddr)
  | setAllAddr => exact setAllAddr_roundTrips hc (hrow .setAllAddr)

end Sys2Proof.Machine
end

section
/-!
PROOFS. What can and cannot go wrong (60_exceptions.md R224, R229, R230, R235), by the frame rule of the step and the interpreter's failures.
-/

namespace Sys2Proof.Machine

/-- Settles O44: the frame rule of a step already gives its next state, for idling and for each operation. -/
theorem nothingStopsTheBlock : Obligations.NothingStopsTheBlock := by
  intro s hc
  obtain ⟨t, hstep, -⟩ := step_extends hc
  exact ⟨t, hstep⟩

/-- Settles O54: reading fails only with `FAIL_LAYOUT`, by induction on the schema, and so does the check for excess payload behind it. -/
theorem interpreterFailsOnlyWithLayout : Obligations.InterpreterFailsOnlyWithLayout :=
  fun cfg sch f => interpret_onlyLayout cfg sch f

/-- Settles O39, by the step's equation for an empty queue. -/
theorem idleStepHoldsTheState : Obligations.IdleStepHoldsTheState :=
  fun _ hc hi => step_of_noOperation hc hi

end Sys2Proof.Machine
end

section
/-!
PROOFS. Reset and the configuration (70_reset_and_hazards.md R240, R242, R243): what a well-formed configuration is, that no step writes it,
and that reset begins with one.
-/

namespace Sys2Proof

/-- The conditions of 70_reset_and_hazards.md R243 (1), with the last two row by row. -/
theorem Config.wellFormed_iff {cfg : Config} :
    cfg.wellFormed = true ↔
      1 ≤ cfg.discardBound ∧ cfg.codesInRange = true ∧ cfg.typeCode.injective = true ∧
        ∀ m, (cfg.schema.row m).condsPrecede [] = true ∧ (cfg.schema.row m).restLast true = true := by
  simp only [Config.wellFormed, Bool.and_eq_true, decide_eq_true_iff, List.all_eq_true, PacketType.mem_all, forall_const, and_assoc]

theorem Config.wellFormed_default : Config.default.wellFormed = true := by decide

end Sys2Proof

namespace Sys2Proof.Machine

/-- Settles O36, by the frame rule of a step. -/
theorem stepKeepsTheConfiguration : Obligations.StepKeepsTheConfiguration :=
  fun _ _ h => (extends_of_step_next h).cfg

/-- Settles O38: each of the five failures contradicts its conjunct of well-formedness. -/
theorem illFormedConfigurationIsRefused : Obligations.IllFormedConfigurationIsRefused := by
  intro s hfails
  refine step_of_illFormed (Bool.eq_false_iff.mpr fun hwf => ?_)
  obtain ⟨hbound, hrange, hinjective, hrows⟩ := Config.wellFormed_iff.mp hwf
  rcases hfails with hzero | hfails | hfails | ⟨m, hfails⟩ | ⟨m, hfails⟩
  · omega
  · exact Bool.false_ne_true (hfails.symm.trans hrange)
  · exact Bool.false_ne_true (hfails.symm.trans hinjective)
  · exact Bool.false_ne_true (hfails.symm.trans (hrows m).left)
  · exact Bool.false_ne_true (hfails.symm.trans (hrows m).right)

/-- Settles O40: the default configuration is well-formed, and the empty buffer is of the shape Q0. -/
theorem resetMeetsTheInvariant : Obligations.ResetMeetsTheInvariant :=
  ⟨⟨Config.wellFormed_default, quiescent_nil⟩, rfl, rfl, rfl⟩

end Sys2Proof.Machine
end
